-- ==== Sys2Proof/Word.lean ====
section
/-! DEFINITION. The word types of the core and their plainest views (rules R7, R9 of 00_scope.md). -/

namespace Sys2Proof

/-- One 32-bit register of the window, and a command word (R41, R55). -/
abbrev Word := BitVec 32

/-- A 64-bit word of a WideInteger (R9, R24). -/
abbrev DWord := BitVec 64

/-- A 128-bit register: A, B, R, LA or LB (R20). -/
abbrev Quad := BitVec 128

/-- The 128-bit register with the four 32-bit words `w3 … w0`, most significant first (R9). -/
def Quad.ofWords (w3 w2 w1 w0 : Word) : Quad := w3 ++ w2 ++ w1 ++ w0

/-- `MIN`, the pattern of −2^127 (R7, glossary of 00_scope.md). -/
def Quad.min : Quad := BitVec.ofNat 128 (2 ^ 127)

/-- `MAX`, the pattern of 2^127 − 1 (R7). -/
def Quad.max : Quad := BitVec.ofNat 128 (2 ^ 127 - 1)

end Sys2Proof
end

