-- ==== Sys2Proof/Config.lean ====
section
/-! DEFINITION. What the platform or the implementation fixes and the spec leaves open (R8 of 00_scope.md, U4 to U6 and U12 of
93_implementation_defined.md). An `opaque` constant has no value a proof could see, so a theorem holds whatever it is. -/

namespace Sys2Proof

/-- `DIV_EXTRA_PRECISION` (R8, R99, D30, U5): a natural number the spec leaves open; only DDIV reads it. -/
opaque Config.divExtraPrecision : Nat

/-- Which 64-byte block of the platform's address space holds the window (R40, U6). -/
opaque Config.coreBaseBlock : Nat

/-- `CORE_BASE` (R40, D3): "a base address the platform chooses … aligned to 64 bytes". -/
def Config.coreBase : Nat := 64 * Config.coreBaseBlock

/-- What the bus returns to the n-th read made while reset is asserted: `any value` (R140, U12). One 32-bit word whatever the width of
the read: the model's choice (DESIGN CHOICE, log 10). -/
opaque Config.resetReadData : Nat → Word

/-- `WIDE_LIMIT` (R8, D27): the largest WideInteger, the bound of DDIV's scale-up. -/
def Config.wideLimit : Nat := 2 ^ 127 - 1

/-- The first magnitude that does not fit a ScaledDecimal mantissa (R7). -/
def Config.mantissaBound : Nat := 2 ^ 96

/-- The largest scale of a ScaledDecimal (R7). -/
def Config.maxScale : Nat := 28

/-- The last entry of the power-of-ten table (R8, R31). -/
def Config.lastPower : Nat := 38

end Sys2Proof
end

