-- ==== Sys2Proof/Syntax.lean ====
section
/-! DEFINITION. The commands of the core: one constructor per row of spec/opcode_table.json (R58 and R63 of 30_encoding.md). -/

namespace Sys2Proof

/-- The five rounding modes, in the order of the source's table (R59). -/
inductive RoundingMode where
  | toNearest
  | toNearestTiesAway
  | toZero
  | toPositiveInfinity
  | toNegativeInfinity
deriving DecidableEq, Repr

/-- The fifteen commands of R58 and the three pseudo-instructions of R63. A command names no register in its word: operands
are LA and LB (R57). -/
inductive Instr where
  /-- WideInteger A + B (R65). -/
  | add
  /-- WideInteger A − B (R66). -/
  | sub
  /-- WideInteger −A (R67). -/
  | neg
  /-- WideInteger |A| (R68). -/
  | abs
  /-- WideInteger A × B (R69). -/
  | mul
  /-- WideInteger A / B (R70). -/
  | div
  /-- WideInteger A mod B (R71). -/
  | mod
  /-- WideInteger floor of the square root of A (R73). -/
  | isqrt
  /-- WideInteger A × 10^k, `k` the zero-extended immediate, an index into the power-of-ten table (R74). -/
  | scl10 (k : Nat)
  /-- ScaledDecimal A + B (R95). -/
  | dadd
  /-- ScaledDecimal A − B (R96). -/
  | dsub
  /-- ScaledDecimal A × B (R98). -/
  | dmul
  /-- ScaledDecimal A / B (R100). -/
  | ddiv
  /-- ScaledDecimal rounding of A to `places` fraction digits, `places` the sign-extended immediate (R111). -/
  | drnd (places : Int) (mode : RoundingMode)
  /-- ScaledDecimal normalization of A (R94). -/
  | dnorm
  /-- Pseudo-instruction: DRND 0, ToPositiveInfinity (R63). -/
  | dceil
  /-- Pseudo-instruction: DRND 0, ToNegativeInfinity (R63). -/
  | dfloor
  /-- Pseudo-instruction: DRND 0, ToZero (R63). -/
  | dtrunc
deriving DecidableEq, Repr

end Sys2Proof
end

