-- ==== Sys2Proof/WellFormed.lean ====
section
/-! DEFINITION. Which terms of `Instr` some command word stands for (R57, R60 of 30_encoding.md). -/

namespace Sys2Proof

/-- The two operands of DRND whose word is a pseudo-instruction's (R63): that word decodes to the pseudo-instruction, so that
every word has one meaning. -/
def Instr.isPseudoForm (places : Int) (mode : RoundingMode) : Bool :=
  places == 0 && (mode == .toZero || mode == .toPositiveInfinity || mode == .toNegativeInfinity)

/-- The check of an instruction's fields: `k` is 0 … 38 (R57, R60 f); `places` is −128 … 127 (R57); a DRND whose word is a
pseudo-instruction's is written as that pseudo-instruction (R63, log 16). -/
def Instr.wellFormed : Instr → Bool
  | .add | .sub | .neg | .abs | .mul | .div | .mod | .isqrt => true
  | .scl10 k => decide (k ≤ Config.lastPower)
  | .dadd | .dsub | .dmul | .ddiv => true
  | .drnd places mode => decide (-128 ≤ places) && decide (places ≤ 127) && !Instr.isPseudoForm places mode
  | .dnorm | .dceil | .dfloor | .dtrunc => true

/-- The instruction is one that a command word stands for. -/
abbrev Instr.WellFormed (i : Instr) : Prop := i.wellFormed = true

end Sys2Proof
end

