-- ==== Sys2Proof/Decode.lean ====
section
/-! DEFINITION. Decoding a command word, and the encoder beside it (R55 to R63 of 30_encoding.md). Every command is one 32-bit word
written to CMD, so the decoder reads one word and is total on it (R61). -/

namespace Sys2Proof

/-! ## Field extraction (R56) -/

/-- `OP = W[7:0]`. -/
def opField (w : Word) : BitVec 8 := w.extractLsb' 0 8

/-- `RM = W[10:8]`. -/
def rmField (w : Word) : BitVec 3 := w.extractLsb' 8 3

/-- `IMM8 = W[23:16]`. -/
def immField (w : Word) : BitVec 8 := w.extractLsb' 16 8

/-- `RSV = {W[31:24], W[15:11]}`. -/
def rsvField (w : Word) : BitVec 13 := w.extractLsb' 24 8 ++ w.extractLsb' 11 5

/-! ## Rounding modes (R59) -/

/-- The mode an RM value stands for; 5 … 7 are illegal. -/
def RoundingMode.ofRm (rm : BitVec 3) : Option RoundingMode :=
  match rm.toNat with
  | 0 => some .toNearest
  | 1 => some .toNearestTiesAway
  | 2 => some .toZero
  | 3 => some .toPositiveInfinity
  | 4 => some .toNegativeInfinity
  | _ => none

/-- The RM value of a mode. -/
def RoundingMode.rm : RoundingMode → BitVec 3
  | .toNearest => 0
  | .toNearestTiesAway => 1
  | .toZero => 2
  | .toPositiveInfinity => 3
  | .toNegativeInfinity => 4

/-! ## Decoding -/

/-- Why a command word is illegal: the six cases of R60. -/
inductive Illegal where
  /-- (a) OP is not one of the fifteen values of R58. -/
  | opcode
  /-- (b) a reserved bit is set. -/
  | reserved
  /-- (c) RM ≠ 0 on a command other than DRND. -/
  | roundingModeUnused
  /-- (d) RM is 5, 6 or 7 on DRND. -/
  | roundingModeUndefined
  /-- (e) IMM8 ≠ 0 on a command other than SCL10 and DRND. -/
  | immediateUnused
  /-- (f) IMM8 > 38 on SCL10. -/
  | powerOutOfTable
deriving DecidableEq, Repr

/-- A command whose word is its opcode and nothing else (R60 b, c, e). -/
def decodePlain (w : Word) (i : Instr) : Except Illegal Instr :=
  if rsvField w ≠ 0 then .error .reserved
  else if rmField w ≠ 0 then .error .roundingModeUnused
  else if immField w ≠ 0 then .error .immediateUnused
  else .ok i

/-- SCL10: `k = zext_8(IMM8)`, legal 0 … 38 (R57; R60 b, c, f). -/
def decodeScl10 (w : Word) : Except Illegal Instr :=
  if rsvField w ≠ 0 then .error .reserved
  else if rmField w ≠ 0 then .error .roundingModeUnused
  else if (immField w).toNat > Config.lastPower then .error .powerOutOfTable
  else .ok (.scl10 (immField w).toNat)

/-- The instruction that DRND's operands stand for: three of the words are the pseudo-instructions' own (R63). -/
def drndInstr (places : Int) (mode : RoundingMode) : Instr :=
  if places = 0 then
    match mode with
    | .toPositiveInfinity => .dceil
    | .toNegativeInfinity => .dfloor
    | .toZero => .dtrunc
    | .toNearest => .drnd places .toNearest
    | .toNearestTiesAway => .drnd places .toNearestTiesAway
  else .drnd places mode

/-- DRND: `places = sext_8(IMM8)`, `mode = RM` (R57, R59; R60 b, d). -/
def decodeDrnd (w : Word) : Except Illegal Instr :=
  if rsvField w ≠ 0 then .error .reserved
  else match RoundingMode.ofRm (rmField w) with
    | none => .error .roundingModeUndefined
    | some mode => .ok (drndInstr (immField w).toInt mode)

/-- The decoder, total on every 32-bit word (R61): one legal command of R58 with its fields, or illegal by R60. -/
def decode (w : Word) : Except Illegal Instr :=
  match (opField w).toNat with
  | 0x01 => decodePlain w .add
  | 0x02 => decodePlain w .sub
  | 0x03 => decodePlain w .neg
  | 0x04 => decodePlain w .abs
  | 0x05 => decodePlain w .mul
  | 0x06 => decodePlain w .div
  | 0x07 => decodePlain w .mod
  | 0x08 => decodePlain w .isqrt
  | 0x09 => decodeScl10 w
  | 0x11 => decodePlain w .dadd
  | 0x12 => decodePlain w .dsub
  | 0x13 => decodePlain w .dmul
  | 0x14 => decodePlain w .ddiv
  | 0x15 => decodeDrnd w
  | 0x16 => decodePlain w .dnorm
  | _ => .error .opcode

/-! ## Encoding -/

/-- One command word from its fields, the reserved bits 0 (R55). -/
def packWord (op : BitVec 8) (rm : BitVec 3) (imm : BitVec 8) : Word := 0#8 ++ imm ++ 0#5 ++ rm ++ op

/-- The opcode of a command (R58). -/
def Instr.opcode : Instr → BitVec 8
  | .add => 0x01
  | .sub => 0x02
  | .neg => 0x03
  | .abs => 0x04
  | .mul => 0x05
  | .div => 0x06
  | .mod => 0x07
  | .isqrt => 0x08
  | .scl10 _ => 0x09
  | .dadd => 0x11
  | .dsub => 0x12
  | .dmul => 0x13
  | .ddiv => 0x14
  | .drnd _ _ | .dceil | .dfloor | .dtrunc => 0x15
  | .dnorm => 0x16

/-- The RM field of a command: DRND's mode, 0 elsewhere (R59, R60 c). -/
def Instr.rmBits : Instr → BitVec 3
  | .drnd _ mode => mode.rm
  | .dceil => RoundingMode.toPositiveInfinity.rm
  | .dfloor => RoundingMode.toNegativeInfinity.rm
  | .dtrunc => RoundingMode.toZero.rm
  | .add | .sub | .neg | .abs | .mul | .div | .mod | .isqrt | .scl10 _ | .dadd | .dsub | .dmul | .ddiv | .dnorm => 0

/-- The IMM8 field of a command: `places & 0xFF`, `k`, 0 elsewhere (R57, R62). -/
def Instr.immBits : Instr → BitVec 8
  | .scl10 k => BitVec.ofNat 8 k
  | .drnd places _ => BitVec.ofInt 8 places
  | .add | .sub | .neg | .abs | .mul | .div | .mod | .isqrt | .dadd | .dsub | .dmul | .ddiv | .dnorm | .dceil | .dfloor
  | .dtrunc => 0

/-- The command word of an instruction (R55, R62, R63). -/
def encode (i : Instr) : Word := packWord i.opcode i.rmBits i.immBits

/-! ## The opcode table's numbering -/

/-- The instruction the decoder reads from an instruction of the opcode table: a command is one 32-bit word, bit 0 its least
significant bit, and bits the table does not give are 0. A number that needs more than 32 bits is no command word. -/
def decodeTableWord (nbits w : Nat) : Option Instr :=
  if w % 2 ^ nbits < 2 ^ 32 then
    match decode (BitVec.ofNat 32 (w % 2 ^ nbits)) with
    | .ok i => some i
    | .error _ => none
  else none

end Sys2Proof
end

