-- ==== Sys2Proof/Machine/State.lean ====
section
/-! DEFINITION. The state of the core: everything R20 of 10_state.md lists, the reset input, and the model's own inputs and outputs,
as plain data. P10 (R31) is a constant of Machine/Operands.lean, not a field: it is a ROM that nothing writes. -/

namespace Sys2Proof.Machine

/-- STATUS.ERR, the outcome of the last completed command (R28, R120). The codes 5 … 7 are "never produced". -/
inductive ErrCode where
  /-- 0: the command completed and wrote R. -/
  | none
  /-- 1: a zero divisor (R122). -/
  | overflow
  /-- 2: the square root of a negative value (R123). -/
  | domain
  /-- 3: an illegal command word (R60). -/
  | illegal
  /-- 4: a malformed ScaledDecimal operand (R121). -/
  | badOpnd
deriving DecidableEq, Repr

/-- The width of a host access, in bits (R43). -/
inductive Width where
  | w8
  | w16
  | w32
  | w64
deriving DecidableEq, Repr

/-- One move of one of the three agents: the host port, the core, the platform's reset input. -/
inductive Input where
  /-- The host reads at the byte address `addr`. -/
  | read (addr : Nat) (width : Width)
  /-- The host writes at the byte address `addr`; a 32-bit write drives bits 31:0 of `data`. -/
  | write (addr : Nat) (width : Width) (data : BitVec 64)
  /-- The core takes its completion step, if a command is in flight (R27). -/
  | complete
  /-- The platform asserts reset (R140). -/
  | assertReset
  /-- The platform releases reset (R140). -/
  | releaseReset
deriving DecidableEq, Repr

/-- Why the machine stops. -/
inductive Fault where
  /-- A CMD write while STATUS.BUSY = 1 (R145, U1). Raised by the host's write. Safe: wider than any behaviour of the hardware. -/
  | hazard
  /-- A bus error response: an access that is not 32 bits wide or not at a multiple of 4 (R43, U3). Raised by the host's access.
  Safe: the spec has a model treat it as a fault. -/
  | busError
  /-- An access outside the 64-byte window, which is not the core's (R40). Raised by the host's access. Safe (log 11). -/
  | outsideWindow
deriving DecidableEq, Repr

/-- Why an instruction has no meaning. -/
inductive Refusal where
  /-- The instruction has no meaning in this model yet. Raised by an arm of `exec`; no arm raises it now. Safe. -/
  | notModelled (mnemonic : String)
deriving DecidableEq, Repr

/-- The state of the core. -/
structure State where
  /-- A, the first operand register (R21). -/
  a : Quad
  /-- B, the second operand register (R22). -/
  b : Quad
  /-- R, the result register (R23). -/
  r : Quad
  /-- LA, the operand A latched at issue (R27). -/
  la : Quad
  /-- LB, the operand B latched at issue (R27). -/
  lb : Quad
  /-- LCMD, the command word latched at issue (R27). -/
  lcmd : Word
  /-- STATUS.BUSY: 1 from issue to completion (R28). -/
  busy : Bool
  /-- STATUS.ERR (R28, R120). -/
  err : ErrCode
  /-- The reset input is asserted (R140). -/
  inReset : Bool
  /-- MODEL'S OWN: the moves still to come, the next one first (log 2). -/
  inputs : List Input
  /-- MODEL'S OWN: the words answered to the host's reads, the newest first (log 6). -/
  readLog : List Word
  /-- MODEL'S OWN: how many free values have been drawn (log 10). -/
  freeCount : Nat
deriving DecidableEq, Repr

/-- The state after reset is released (R33, R140, R141): every register 0, the core idle, ERR = NONE. `inputs`, `readLog` and
`freeCount` are the model's own, DESIGN CHOICE (logs 2, 6, 10). -/
def State.reset : State where
  a := 0
  b := 0
  r := 0
  la := 0
  lb := 0
  lcmd := 0
  busy := false
  err := .none
  inReset := false
  inputs := []
  readLog := []
  freeCount := 0

end Sys2Proof.Machine
end

