-- ==== Sys2Proof/Machine/Operands.lean ====
section
/-! DEFINITION. The two views of a 128-bit register and the decimal helpers: rules R9, R10 (00_scope.md), R24 to R26, R31
(10_state.md) and R85 to R99 (41_scaled_decimal.md). Values are mathematical integers, as R10 has it: no intermediate wraps. -/

namespace Sys2Proof.Machine

/-! ## Word views (R9) -/

/-- The 32-bit word `X.w<i>` of a 128-bit register. -/
def quadWord (x : Quad) (i : Fin 4) : Word := x.extractLsb' (32 * i) 32

/-- The 128-bit register with its word `i` replaced. -/
def setQuadWord (x : Quad) (i : Fin 4) (v : Word) : Quad :=
  Quad.ofWords (if i = 3 then v else quadWord x 3) (if i = 2 then v else quadWord x 2)
    (if i = 1 then v else quadWord x 1) (if i = 0 then v else quadWord x 0)

/-- `X.lo = X[63:0]`. -/
def quadLo (x : Quad) : DWord := x.extractLsb' 0 64

/-- `X.hi = X[127:64]`. -/
def quadHi (x : Quad) : DWord := x.extractLsb' 64 64

/-! ## The WideInteger view (R10, R24) -/

/-- `s128(X)`, the signed value of a 128-bit pattern. -/
def s128 (x : Quad) : Int := if x.getLsbD 127 then (x.toNat : Int) - 2 ^ 128 else x.toNat

/-- `u128(v) = v mod 2^128`, the 128-bit pattern of an integer. -/
def u128 (v : Int) : Quad := BitVec.ofNat 128 (v % 2 ^ 128).toNat

/-- `tdiv(a, b) = sign(a)·sign(b)·(|a| div |b|)`: division truncated toward zero. -/
def tdiv (a b : Int) : Int := a.sign * b.sign * ((a.natAbs / b.natAbs : Nat) : Int)

/-! ## The power-of-ten table (R31) -/

/-- P10, the ROM of 39 entries: entry k is the 128-bit pattern of 10^k. -/
def p10Rom : List Quad := (List.range (Config.lastPower + 1)).map fun k => BitVec.ofNat 128 (10 ^ k)

/-- `P10[k]`, for k = 0 … 38. No rule reads an entry beyond 38 (R74, R92, R99). -/
def p10 (k : Nat) : Quad := p10Rom.getD k 0

/-! ## The ScaledDecimal view (R25, R85, R86) -/

/-- A decoded ScaledDecimal `(g, m, s)`: the value `(−1)^g × m / 10^s` (R85). -/
structure Dec where
  /-- g: the sign, true for negative. -/
  neg : Bool
  /-- m: the mantissa. -/
  mant : Nat
  /-- s: the scale. -/
  scale : Nat
deriving DecidableEq, Repr

/-- The value `(−1)^g × m / 10^s` (R25, R85). -/
def Dec.value (d : Dec) : ℚ := (if d.neg then -1 else 1) * (d.mant : ℚ) / 10 ^ d.scale

/-- The scale field, X[119:112]. -/
def scaleField (x : Quad) : BitVec 8 := x.extractLsb' 112 8

/-- The mantissa field, X[95:0]. -/
def mantissaField (x : Quad) : BitVec 96 := x.extractLsb' 0 96

/-- The sign bit, X[127]. -/
def signBit (x : Quad) : Bool := x.getLsbD 127

/-- The reserved fields X[126:120] and X[111:96] are all zero (R25). -/
def reservedZero (x : Quad) : Bool := x.extractLsb' 96 16 == 0#16 && x.extractLsb' 120 7 == 0#7

/-- `DEC(X)`: none stands for `raise BADOPND` (R85, R121). -/
def dec (x : Quad) : Option Dec :=
  if (scaleField x).toNat > Config.maxScale || !reservedZero x then none
  else some ⟨signBit x, (mantissaField x).toNat, (scaleField x).toNat⟩

/-- `ENC(g, m, s) = {g, 7'b0, s[7:0], 16'b0, m[95:0]}` (R86). -/
def enc (d : Dec) : Quad :=
  BitVec.ofBool d.neg ++ 0#7 ++ BitVec.ofNat 8 d.scale ++ 0#16 ++ BitVec.ofNat 96 d.mant

/-- The source's utility `scale()`: the scale field (R25). -/
def scaleUtility (d : Dec) : Nat := d.scale

/-! ## Normalization (R87) -/

/-- The loop of NORMALIZE: `while s > 0 and m mod 10 = 0`; gives (m, s). The scale comes first, the recursion follows it. -/
def stripZeros : Nat → Nat → Nat × Nat
  | 0, m => (m, 0)
  | s + 1, m => if m % 10 = 0 then stripZeros s (m / 10) else (m, s + 1)

/-- `NORMALIZE(g, m, s)`: no trailing zero digit at a non-zero scale, and one zero. -/
def decNormalize (d : Dec) : Dec :=
  if d.mant = 0 then ⟨false, 0, 0⟩
  else ⟨d.neg, (stripZeros d.scale d.mant).1, (stripZeros d.scale d.mant).2⟩

/-- The source's utility `decimalPlacesCount()`: "the scale minus the number of trailing decimal zeros of the mantissa, counted
while the scale stays non-negative" (R25). Every digit of a zero mantissa counts as a trailing zero. -/
def decimalPlacesCount (d : Dec) : Nat := (stripZeros d.scale d.mant).2

/-! ## Narrowing (R89 to R91) -/

/-- `RHU(m, n)`: round-half-up division of a magnitude by 10^n (R89). -/
def rhu (m n : Nat) : Nat :=
  if n = 0 then m else m / 10 ^ n + (if 2 * (m % 10 ^ n) ≥ 10 ^ n then 1 else 0)

/-- `kk`, the largest k with `(m mod 10^k) < 2^96` for an m that does not fit (R91): no such k is above log2 m + 1, since
`m mod 10^k = m` there. -/
def capDigits (m : Nat) : Nat := Nat.findGreatest (fun k => m % 10 ^ k < Config.mantissaBound) (Nat.log2 m + 1)

/-- `CAPTRUNC(m)`: drop leading decimal digits until the magnitude fits 96 bits (R91). -/
def capTrunc (m : Nat) : Nat := if m < Config.mantissaBound then m else m % 10 ^ capDigits m

/-- `FIT(m, s)`, giving (m, s): one round-half-up of one digit at a time while the scale is above 0, then CAPTRUNC (R90). The scale
comes first, the recursion follows it. -/
def fit : Nat → Nat → Nat × Nat
  | 0, m => (capTrunc m, 0)
  | s + 1, m => if Config.mantissaBound ≤ m then fit s (rhu m 1) else (capTrunc m, s + 1)

/-! ## Alignment and pre-reduction (R92, R97) -/

/-- `ALIGN`: both magnitudes lifted to the larger scale by the power-of-ten scaler, exactly; gives (xa, xb, s) (R92). -/
def align (x y : Dec) : Nat × Nat × Nat :=
  let s := max x.scale y.scale
  (x.mant * (p10 (s - x.scale)).toNat, y.mant * (p10 (s - y.scale)).toNat, s)

/-- How many digits PREREDUCE takes off the two operands: none when `sa + sb ≤ 28`, else the excess split with the odd digit taken
off the operand with the larger scale (R97). -/
def reduction (sa sb : Nat) : Nat × Nat :=
  let e := sa + sb - Config.maxScale
  if sa ≥ sb then ((e + 1) / 2, e / 2) else (e / 2, (e + 1) / 2)

/-- `PREREDUCE` (R97): each operand loses its digits by one round-half-up division. -/
def preReduce (x y : Dec) : Dec × Dec :=
  (⟨x.neg, rhu x.mant (reduction x.scale y.scale).1, x.scale - (reduction x.scale y.scale).1⟩,
   ⟨y.neg, rhu y.mant (reduction x.scale y.scale).2, y.scale - (reduction x.scale y.scale).2⟩)

/-! ## Division scale-up (R99) -/

/-- The target precision `p = min(max(sa, sb) + DIV_EXTRA_PRECISION, 28)`. -/
def targetPrecision (extra : Nat) (sa sb : Nat) : Nat := min (max sa sb + extra) Config.maxScale

/-- The loop of SCALEUP: `while j < k and ma × 10^(j+1) ≤ 2^127 − 1: j ← j + 1`, with `left = k − j`; gives the final j. An
exponent beyond the table's 38 can only pass the test when `ma = 0` (R99). -/
def scaleUpLoop (ma : Nat) : Nat → Nat → Nat
  | 0, j => j
  | left + 1, j => if ma * 10 ^ (j + 1) ≤ Config.wideLimit then scaleUpLoop ma left (j + 1) else j

/-- The exponent j that SCALEUP reaches; the wanted one is `k = p − sa + sb`. -/
def scaleUpExponent (extra : Nat) (x y : Dec) : Nat :=
  scaleUpLoop x.mant (targetPrecision extra x.scale y.scale + y.scale - x.scale) 0

/-- `SCALEUP`, giving (n, t): the scaled dividend and the tracked precision `sa + j − sb`, which can be negative (R99). -/
def scaleUp (extra : Nat) (x y : Dec) : Nat × Int :=
  (x.mant * 10 ^ scaleUpExponent extra x y, (x.scale : Int) + scaleUpExponent extra x y - y.scale)

/-- The shrink loop of DDIV: `while q ≥ 2^96 and t > 0: q ← q div 10; t ← t − 1`; gives (q, t) (R100). The precision comes first,
the recursion follows it. -/
def shrinkQuotient : Nat → Nat → Nat × Nat
  | 0, q => (q, 0)
  | t + 1, q => if Config.mantissaBound ≤ q then shrinkQuotient t (q / 10) else (q, t + 1)

end Sys2Proof.Machine
end

