-- ==== Sys2Proof/Machine/Flags.lean ====
section
/-! DEFINITION. The status register (R28 of 10_state.md, R120 of 60_exceptions.md). The core has no arithmetic flag: "No command
produces a carry, overflow, zero or sign flag" (R29). STATUS is its only status. -/

namespace Sys2Proof.Machine

/-- The 3-bit code of an outcome (R120). -/
def ErrCode.code : ErrCode → BitVec 3
  | .none => 0
  | .overflow => 1
  | .domain => 2
  | .illegal => 3
  | .badOpnd => 4

/-- The STATUS word: BUSY in bit 0, ERR in bits 6:4, every other bit 0 (R28). -/
def statusWord (busy : Bool) (err : ErrCode) : Word := 0#25 ++ err.code ++ 0#3 ++ BitVec.ofBool busy

/-- BUSY as a host reads it off a STATUS word (R28, R64 `WAIT`). -/
def statusBusy (w : Word) : Bool := w.getLsbD 0

/-- ERR as a host reads it off a STATUS word (R28, R64 `WAIT`). -/
def statusErr (w : Word) : BitVec 3 := w.extractLsb' 4 3

end Sys2Proof.Machine
end

