-- ==== Sys2Proof/Machine/Ops.lean ====
section
/-! DEFINITION. The operations on State that commands, the host port and reset share: issue, completion, error entry, reset. -/

namespace Sys2Proof.Machine

/-! ## Completion and error entry (R11, R27, R125) -/

/-- How a command ends (R11): `complete` with the value for R, or `raise` with an error code. -/
inductive CmdResult where
  | complete (v : Quad)
  | raise (e : ErrCode)
deriving DecidableEq, Repr

/-- `R <- v; complete`: in one step all of R, ERR ← NONE and BUSY ← 0 (R23, R27). -/
def State.complete (s : State) (v : Quad) : State := { s with r := v, err := .none, busy := false }

/-- TAKING AN ERROR, the core's one exception entry (R125): `STATUS.ERR <- code`, `STATUS.BUSY <- 0` "and nothing else". There is
no saved program counter, mode or vector to write, and no return from it: "There is no return-from-error operation" (R126). -/
def State.raise (s : State) (e : ErrCode) : State := { s with err := e, busy := false }

/-- The completion step's effect, by how the command ends. -/
def State.finish (s : State) : CmdResult → State
  | .complete v => s.complete v
  | .raise e => s.raise e

/-- A command always ends in a next state (R150). -/
def State.finishNext (s : State) (res : CmdResult) : Host.Outcome State Fault Refusal := .next (s.finish res)

/-! ## Decimal operands (R85, R124) -/

/-- A one-operand decimal command on the register image `x`: `DEC(A)` first, BADOPND when it fails. -/
def withDec (x : Quad) (f : Dec → CmdResult) : CmdResult :=
  match dec x with
  | none => .raise .badOpnd
  | some d => f d

/-- A two-operand decimal command: "applies DEC to A and then to B" (R85). -/
def withDecs (x y : Quad) (f : Dec → Dec → CmdResult) : CmdResult := withDec x fun d => withDec y fun e => f d e

/-! ## Issue (R27) -/

/-- A CMD write accepted: `LA <- A`, `LB <- B`, `LCMD <- W`, `STATUS.BUSY <- 1` in one atomic step. -/
def State.issue (s : State) (w : Word) : State := { s with la := s.a, lb := s.b, lcmd := w, busy := true }

/-! ## Reset (R33, R140) -/

/-- Every register at its value of R33; a command in flight is abandoned. The model's own fields and the input's level stay. -/
def State.clearRegisters (s : State) : State :=
  { s with a := 0, b := 0, r := 0, la := 0, lb := 0, lcmd := 0, busy := false, err := .none }

/-- Reset is asserted (R140). -/
def State.assertReset (s : State) : State := { s.clearRegisters with inReset := true }

/-- Reset is released (R140): "when it is released, every register takes the value of … R33". An edge when reset is not asserted
is none, and changes nothing (log 14). -/
def State.releaseReset (s : State) : State := if s.inReset then { s.clearRegisters with inReset := false } else s

/-! ## The port's answers -/

/-- The core answers a read with a word. -/
def State.answer (s : State) (w : Word) : State := { s with readLog := w :: s.readLog }

/-- A read made while reset is asserted is answered with a free value (U12, log 10). U12 gives the answer no width: that a read of every width,
8, 16, 32 or 64 bits, is answered with one free 32-bit word is the model's choice (DESIGN CHOICE, log 10). -/
def State.answerFree (s : State) : State :=
  { s with readLog := Config.resetReadData s.freeCount :: s.readLog, freeCount := s.freeCount + 1 }

end Sys2Proof.Machine
end

