-- ==== Sys2Proof/Machine/Rounding.lean ====
section
/-! DEFINITION. The decimal rounding unit: DRND and its pseudo-instructions (R110 to R114 of 42_rounding.md, R63 of
30_encoding.md). -/

namespace Sys2Proof.Machine

/-! ## Digit extraction (R110) -/

/-- `d`, the rounding digit: the first digit removed. -/
def roundingDigit (m n : Nat) : Nat := m / 10 ^ (n - 1) % 10

/-- `rest`: the further removed digits below the rounding digit. -/
def removedRest (m n : Nat) : Nat := m % 10 ^ (n - 1)

/-- `T`, the truncated mantissa. -/
def truncatedMantissa (m n : Nat) : Nat := m / 10 ^ n

/-- `any`: some removed digit is non-zero. -/
def anyRemoved (m n : Nat) : Bool := m % 10 ^ n != 0

/-! ## The increment decision (R112) -/

/-- `INC(mode, g, d, rest, T, any)`, one row per mode. -/
def increments (mode : RoundingMode) (g : Bool) (d rest t : Nat) (any : Bool) : Bool :=
  match mode with
  | .toNearest => decide (d > 5) || (d == 5 && rest != 0) || (d == 5 && rest == 0 && t % 2 == 1)
  | .toNearestTiesAway => decide (d ≥ 5)
  | .toZero => false
  | .toPositiveInfinity => !g && any
  | .toNegativeInfinity => g && any

/-! ## DRND (R111) -/

/-- `max(places, 0)`: every negative `places` acts as 0 (R57). -/
def effectivePlaces (places : Int) : Nat := (max places 0).toNat

/-- The mantissa after removing `n ≥ 1` digits, incremented as the mode decides (R111). -/
def roundedMantissa (mode : RoundingMode) (g : Bool) (m n : Nat) : Nat :=
  truncatedMantissa m n +
    (if increments mode g (roundingDigit m n) (removedRest m n) (truncatedMantissa m n) (anyRemoved m n) then 1 else 0)

/-- The result of DRND on a decoded operand: `n = s − max(places, 0)` digits are removed when n > 0, and the rest is normalized
(R111). -/
def decRound (places : Int) (mode : RoundingMode) (x : Dec) : Dec :=
  if x.scale ≤ effectivePlaces places then decNormalize x
  else
    decNormalize ⟨x.neg, roundedMantissa mode x.neg x.mant (x.scale - effectivePlaces places), effectivePlaces places⟩

/-- The completion of a rounding command on LA: DEC, then the rounding (R111). -/
def State.round (s : State) (places : Int) (mode : RoundingMode) : Host.Outcome State Fault Refusal :=
  s.finishNext (withDec s.la fun x => .complete (enc (decRound places mode x)))

/-- DRND places, mode (R111). -/
def execDrnd (places : Int) (mode : RoundingMode) (s : State) : Host.Outcome State Fault Refusal := s.round places mode

/-- DCEIL: `DRND 0, ToPositiveInfinity` (R63). -/
def execDceil (s : State) : Host.Outcome State Fault Refusal := s.round 0 .toPositiveInfinity

/-- DFLOOR: `DRND 0, ToNegativeInfinity` (R63). -/
def execDfloor (s : State) : Host.Outcome State Fault Refusal := s.round 0 .toNegativeInfinity

/-- DTRUNC: `DRND 0, ToZero` (R63). -/
def execDtrunc (s : State) : Host.Outcome State Fault Refusal := s.round 0 .toZero

end Sys2Proof.Machine
end

