-- ==== Sys2Proof/Machine/ScaledDecimal.lean ====
section
/-! DEFINITION. The ScaledDecimal commands DNORM, DADD, DSUB, DMUL and DDIV (R94 to R100 of 41_scaled_decimal.md), over the helpers of
Machine/Operands.lean. Each decodes its operands first (R85, R124). -/

namespace Sys2Proof.Machine

/-- `FIT` and then `NORMALIZE`: how an exact magnitude becomes a result (R95, R98). -/
def narrow (g : Bool) (m s : Nat) : Dec := decNormalize ⟨g, (fit s m).1, (fit s m).2⟩

/-! ## Normalization (R94) -/

/-- DNORM (R94). -/
def execDnorm (s : State) : Host.Outcome State Fault Refusal :=
  s.finishNext (withDec s.la fun x => .complete (enc (decNormalize x)))

/-! ## Adder/subtractor on magnitudes (R95, R96) -/

/-- Sign and magnitude of the sum of two aligned magnitudes: same signs add, else the larger minus the smaller with the sign of the
larger (R95). -/
def addMagnitudes (ga gb : Bool) (xa xb : Nat) : Bool × Nat :=
  if ga = gb then (ga, xa + xb) else if xa ≥ xb then (ga, xa - xb) else (gb, xb - xa)

/-- The result of DADD on decoded operands (R95). -/
def decAdd (x y : Dec) : Dec :=
  let al := align x y
  let gm := addMagnitudes x.neg y.neg al.1 al.2.1
  narrow gm.1 gm.2 al.2.2

/-- The result of DSUB: DADD "with (1 − gb, mb, sb) in place of (gb, mb, sb)" (R96). -/
def decSub (x y : Dec) : Dec := decAdd x { y with neg := !y.neg }

/-- DADD (R95). -/
def execDadd (s : State) : Host.Outcome State Fault Refusal :=
  s.finishNext (withDecs s.la s.lb fun x y => .complete (enc (decAdd x y)))

/-- DSUB (R96). -/
def execDsub (s : State) : Host.Outcome State Fault Refusal :=
  s.finishNext (withDecs s.la s.lb fun x y => .complete (enc (decSub x y)))

/-! ## Multiplier (R97, R98) -/

/-- The result of DMUL: pre-reduction, the exact product, FIT and NORMALIZE, sign the XOR of the signs (R98). -/
def decMul (x y : Dec) : Dec :=
  let p := preReduce x y
  narrow (x.neg ^^ y.neg) (p.1.mant * p.2.mant) (p.1.scale + p.2.scale)

/-- DMUL (R98). -/
def execDmul (s : State) : Host.Outcome State Fault Refusal :=
  s.finishNext (withDecs s.la s.lb fun x y => .complete (enc (decMul x y)))

/-! ## Divider (R99, R100) -/

/-- The quotient's way back from the tracked precision t: shrink it by truncating divisions while it does not fit, or, for a
negative t, multiply it back to scale 0; then CAPTRUNC (R100). -/
def settleQuotient (q : Nat) (t : Int) : Nat × Nat :=
  if t < 0 then (capTrunc (q * 10 ^ (-t).toNat), 0)
  else (capTrunc (shrinkQuotient t.toNat q).1, (shrinkQuotient t.toNat q).2)

/-- The result of DDIV on decoded operands, for a value of DIV_EXTRA_PRECISION; "if mb = 0: raise OVERFLOW" (R100). -/
def decDiv (extra : Nat) (x y : Dec) : CmdResult :=
  if y.mant = 0 then .raise .overflow
  else
    let n := scaleUp extra x y
    let q := settleQuotient (n.1 / y.mant) n.2
    .complete (enc (decNormalize ⟨x.neg ^^ y.neg, q.1, q.2⟩))

/-- DDIV (R100). -/
def execDdiv (s : State) : Host.Outcome State Fault Refusal :=
  s.finishNext (withDecs s.la s.lb fun x y => decDiv Config.divExtraPrecision x y)

end Sys2Proof.Machine
end

