-- ==== Sys2Proof/Machine/WideInteger.lean ====
section
/-! DEFINITION. The WideInteger commands, opcodes 0x01 to 0x09 (R65 to R75 of 40_wide_integer.md). Each reads the latched operands LA
and LB, called A and B in the rules, and has no other operand than the command word's immediate. -/

namespace Sys2Proof.Machine

/-! ## Adder/subtractor on 64-bit words (R65 to R68) -/

/-- ADD in the source's two-word form: the carry of the low words goes into the high words and no further (R65). -/
def wideAdd (a b : Quad) : Quad :=
  let lo : BitVec 65 := (quadLo a).setWidth 65 + (quadLo b).setWidth 65
  let carry : DWord := (BitVec.ofBool (lo.getLsbD 64)).setWidth 64
  (quadHi a + quadHi b + carry) ++ lo.setWidth 64

/-- SUB in the source's two-word form (R66). -/
def wideSub (a b : Quad) : Quad :=
  let borrow : DWord := if (quadLo a).toNat < (quadLo b).toNat then 1 else 0
  (quadHi a - quadHi b - borrow) ++ (quadLo a - quadLo b)

/-- NEG: complement both words, then add one (R67). -/
def wideNeg (a : Quad) : Quad := ~~~a + 1

/-- ABS: conditional negation (R68). -/
def wideAbs (a : Quad) : Quad := if signBit a then wideNeg a else a

/-- ADD (R65). -/
def execAdd (s : State) : Host.Outcome State Fault Refusal := s.finishNext (.complete (wideAdd s.la s.lb))

/-- SUB (R66). -/
def execSub (s : State) : Host.Outcome State Fault Refusal := s.finishNext (.complete (wideSub s.la s.lb))

/-- NEG (R67). -/
def execNeg (s : State) : Host.Outcome State Fault Refusal := s.finishNext (.complete (wideNeg s.la))

/-- ABS (R68). -/
def execAbs (s : State) : Host.Outcome State Fault Refusal := s.finishNext (.complete (wideAbs s.la))

/-! ## Multiplier (R69) -/

/-- MUL: `u128(A × B)`, A and B as unsigned patterns (R69). -/
def wideMul (a b : Quad) : Quad := u128 ((a.toNat * b.toNat : Nat) : Int)

/-- MUL (R69). -/
def execMul (s : State) : Host.Outcome State Fault Refusal := s.finishNext (.complete (wideMul s.la s.lb))

/-! ## Divider (R70, R71) -/

/-- DIV: the exact quotient rounded toward zero, modulo 2^128; OVERFLOW when B = 0 (R70). -/
def wideDiv (a b : Quad) : CmdResult :=
  if b = 0 then .raise .overflow else .complete (u128 (tdiv (s128 a) (s128 b)))

/-- MOD: `a − tdiv(a, b) × b`; OVERFLOW when B = 0 (R71). -/
def wideMod (a b : Quad) : CmdResult :=
  if b = 0 then .raise .overflow else .complete (u128 (s128 a - tdiv (s128 a) (s128 b) * s128 b))

/-- DIV (R70). -/
def execDiv (s : State) : Host.Outcome State Fault Refusal := s.finishNext (wideDiv s.la s.lb)

/-- MOD (R71). -/
def execMod (s : State) : Host.Outcome State Fault Refusal := s.finishNext (wideMod s.la s.lb)

/-! ## Integer square root (R73) -/

/-- The bits of the root below bit `i + 1`, from the top: bit i is set when the square still does not exceed n. -/
def isqrtLoop (n : Nat) : Nat → Nat → Nat
  | 0, r => r
  | i + 1, r => if (r + 2 ^ i) ^ 2 ≤ n then isqrtLoop n i (r + 2 ^ i) else isqrtLoop n i r

/-- "the unique integer r ≥ 0 with r^2 ≤ n < (r + 1)^2" (R73), for n below 2^128: its root has at most 64 bits. -/
def isqrtNat (n : Nat) : Nat := isqrtLoop n 64 0

/-- ISQRT: DOMAIN for a negative operand, else the floor of the square root (R73). -/
def wideIsqrt (a : Quad) : CmdResult :=
  if s128 a < 0 then .raise .domain else .complete (u128 (isqrtNat (s128 a).toNat))

/-- ISQRT (R73). -/
def execIsqrt (s : State) : Host.Outcome State Fault Refusal := s.finishNext (wideIsqrt s.la)

/-! ## Power-of-ten scaler (R74) -/

/-- SCL10 k: `u128(A × P10[k])`; "ILLEGAL for k > 38", where the table has no entry (R74, R60 f). -/
def wideScl10 (k : Nat) (a : Quad) : CmdResult :=
  if k > Config.lastPower then .raise .illegal else .complete (u128 ((a.toNat * (p10 k).toNat : Nat) : Int))

/-- SCL10 k (R74). -/
def execScl10 (k : Nat) (s : State) : Host.Outcome State Fault Refusal := s.finishNext (wideScl10 k s.la)

end Sys2Proof.Machine
end

