-- ==== Sys2Proof/Machine/Dispatch.lean ====
section
/-! DEFINITION. One arm per constructor of Instr: the command in flight runs on the latches (R27, R58). -/

namespace Sys2Proof.Machine

def exec (i : Instr) (s : State) : Host.Outcome State Fault Refusal :=
  match i with
  | .add => Sys2Proof.Machine.execAdd s
  | .sub => Sys2Proof.Machine.execSub s
  | .neg => Sys2Proof.Machine.execNeg s
  | .abs => Sys2Proof.Machine.execAbs s
  | .mul => Sys2Proof.Machine.execMul s
  | .div => Sys2Proof.Machine.execDiv s
  | .mod => Sys2Proof.Machine.execMod s
  | .isqrt => Sys2Proof.Machine.execIsqrt s
  | .scl10 k => Sys2Proof.Machine.execScl10 k s
  | .dadd => Sys2Proof.Machine.execDadd s
  | .dsub => Sys2Proof.Machine.execDsub s
  | .dmul => Sys2Proof.Machine.execDmul s
  | .ddiv => Sys2Proof.Machine.execDdiv s
  | .drnd places mode => Sys2Proof.Machine.execDrnd places mode s
  | .dnorm => Sys2Proof.Machine.execDnorm s
  | .dceil => Sys2Proof.Machine.execDceil s
  | .dfloor => Sys2Proof.Machine.execDfloor s
  | .dtrunc => Sys2Proof.Machine.execDtrunc s

end Sys2Proof.Machine
end

