-- ==== Sys2Proof/Machine/Port.lean ====
section
/-! DEFINITION. The host port: the register window and the accesses to it (R40 to R46 of 20_memory.md, R115 of
43_host_operations.md), and the host's access sequences (R64 of 30_encoding.md). -/

namespace Sys2Proof.Machine

/-! ## The register map (R41) -/

/-- What an offset of the window holds (R41). -/
inductive WindowReg where
  | a (i : Fin 4)
  | b (i : Fin 4)
  | r (i : Fin 4)
  | cmd
  | status
  | reserved
deriving DecidableEq, Repr

/-- The size of the window in bytes (R40). -/
def windowSize : Nat := 0x40

/-- The register that holds the byte at an offset of the window (R41). -/
def windowReg (off : Nat) : WindowReg :=
  if off < 0x10 then .a (Fin.ofNat 4 (off / 4))
  else if off < 0x20 then .b (Fin.ofNat 4 (off / 4))
  else if off < 0x30 then .r (Fin.ofNat 4 (off / 4))
  else if off < 0x34 then .cmd
  else if off < 0x38 then .status
  else .reserved

/-- The current content of a register as a read returns it: CMD and reserved offsets read 0 (R41, R44). -/
def State.readReg (s : State) : WindowReg → Word
  | .a i => quadWord s.a i
  | .b i => quadWord s.b i
  | .r i => quadWord s.r i
  | .cmd => 0
  | .status => statusWord s.busy s.err
  | .reserved => 0

/-- A 32-bit write to a register: A and B are replaced word by word, CMD issues a command or, while BUSY = 1, is the hazard of R145;
R, STATUS and reserved offsets ignore it (R27, R44, R45). -/
def State.writeReg (s : State) (v : Word) : WindowReg → Host.Outcome State Fault Refusal
  | .a i => .next { s with a := setQuadWord s.a i v }
  | .b i => .next { s with b := setQuadWord s.b i v }
  | .r _ => .next s
  | .cmd => if s.busy then .fault .hazard else .next (s.issue v)
  | .status => .next s
  | .reserved => .next s

/-! ## Accesses (R40, R43, R140) -/

/-- The offset of a byte address in the window at CORE_BASE; none outside it (R40). -/
def windowOffset (addr : Nat) : Option Nat :=
  if Config.coreBase ≤ addr ∧ addr < Config.coreBase + windowSize then some (addr - Config.coreBase) else none

/-- The only accesses the window accepts: 32 bits wide at a multiple of 4 (R43). -/
def acceptedAccess (width : Width) (off : Nat) : Bool := width == .w32 && off % 4 == 0

/-- `MemRead` at an offset: a bus error when not accepted, else the register's content, with no other effect (R43, R45). -/
def State.readAt (s : State) (width : Width) (off : Nat) : Host.Outcome State Fault Refusal :=
  if acceptedAccess width off then .next (s.answer (s.readReg (windowReg off))) else .fault .busError

/-- `MemWrite` at an offset: a bus error when not accepted, else the write of bits 31:0 (R43, R45). -/
def State.writeAt (s : State) (width : Width) (off : Nat) (data : BitVec 64) : Host.Outcome State Fault Refusal :=
  if acceptedAccess width off then s.writeReg (data.setWidth 32) (windowReg off) else .fault .busError

/-- A host read at a byte address. While reset is asserted the core ignores it and the bus returns any value (R140, U12). -/
def State.hostRead (s : State) (addr : Nat) (width : Width) : Host.Outcome State Fault Refusal :=
  match windowOffset addr with
  | none => .fault .outsideWindow
  | some off => if s.inReset then .next s.answerFree else s.readAt width off

/-- A host write at a byte address. While reset is asserted the core ignores it (R140). -/
def State.hostWrite (s : State) (addr : Nat) (width : Width) (data : BitVec 64) : Host.Outcome State Fault Refusal :=
  match windowOffset addr with
  | none => .fault .outsideWindow
  | some off => if s.inReset then .next s else s.writeAt width off data

/-! ## Bytes of the window (R42) -/

/-- The byte at an offset: inside a 32-bit register the byte at `off + i` is bits `[8i+7 : 8i]`. -/
def State.windowByte (s : State) (off : Nat) : BitVec 8 := (s.readReg (windowReg off)).extractLsb' (8 * (off % 4)) 8

/-! ## The host's access sequences (R64), as inputs -/

/-- `MemRead(CORE_BASE + off, 4)` (R115). -/
def memRead (off : Nat) : Input := .read (Config.coreBase + off) .w32

/-- `MemWrite(CORE_BASE + off, 4, v)` (R115). -/
def memWrite (off : Nat) (v : Word) : Input := .write (Config.coreBase + off) .w32 (v.setWidth 64)

/-- The four word writes of a 128-bit operand at `base`, least significant word first. -/
def loadQuad (base : Nat) (v : Quad) : List Input :=
  [memWrite base (quadWord v 0), memWrite (base + 4) (quadWord v 1), memWrite (base + 8) (quadWord v 2),
    memWrite (base + 12) (quadWord v 3)]

/-- The macro `LDA v`. -/
def macroLda (v : Quad) : List Input := loadQuad 0x00 v

/-- The macro `LDB v`. -/
def macroLdb (v : Quad) : List Input := loadQuad 0x10 v

/-- One command line of a host program: the write of its word to CMD (R62). -/
def macroIssue (w : Word) : Input := memWrite 0x30 w

/-- The macro `WAIT` that polls `polls` times in vain, lets the core complete, and reads STATUS once more. How often a host polls is
decided by when the completion step happens, so each number of polls is one schedule (R49, R149). -/
def macroWait (polls : Nat) : List Input := List.replicate polls (memRead 0x34) ++ [.complete, memRead 0x34]

/-- The macro `RDR`: the four reads of R. R64 writes them in one concatenation and gives them no order in time; that they are made most
significant word first, 0x2C to 0x20, is the model's choice (DESIGN CHOICE, log 28). A host that reads in another order is another list
of inputs. -/
def macroRdr : List Input := [memRead 0x2C, memRead 0x28, memRead 0x24, memRead 0x20]

/-- The value `r` that RDR assembles from its four answers, given newest first as `readLog` holds them, so word 0 first (log 28). -/
def rdrValue : List Word → Option Quad
  | w0 :: w1 :: w2 :: w3 :: _ => some (Quad.ofWords w3 w2 w1 w0)
  | _ => none

end Sys2Proof.Machine
end

