-- ==== Sys2Proof/Machine/Sequencer.lean ====
section
/-! DEFINITION. Which agent moves, and what its move does (R27 of 10_state.md, R48 of 20_memory.md, R140 and R149 of
70_reset_and_hazards.md). -/

namespace Sys2Proof.Machine

/-- The completion step performs the command in LCMD: an illegal word ends with `raise ILLEGAL` (R60), a legal one has its meaning. -/
def State.perform (s : State) : Host.Outcome State Fault Refusal :=
  match decode s.lcmd with
  | .error _ => s.finishNext (.raise .illegal)
  | .ok i => exec i s

/-- The core's move: with a command in flight, its completion step; an idle core, and one held in reset, does nothing (R27, R134,
R140). -/
def State.coreMove (s : State) : Host.Outcome State Fault Refusal :=
  if s.inReset then .next s else if s.busy then s.perform else .next s

/-- One move of an agent. -/
def State.move (s : State) : Input → Host.Outcome State Fault Refusal
  | .read addr width => s.hostRead addr width
  | .write addr width data => s.hostWrite addr width data
  | .complete => s.coreMove
  | .assertReset => .next s.assertReset
  | .releaseReset => .next s.releaseReset

/-- One step: the next move of `inputs`, in order (R48). When none is left the core moves: by weak fairness it takes its completion
step at last (R149, log 3), and an idle core stays as it is. -/
def State.advance (s : State) : Host.Outcome State Fault Refusal :=
  match s.inputs with
  | [] => s.coreMove
  | e :: rest => { s with inputs := rest }.move e

/-- The state in which the very next step completes the command word `w`: the host's CMD write of `w` has been accepted with the
operands A and B hold, outside reset, and the core moves next (R27, log 5). -/
def State.issueNext (s : State) (w : Word) : State :=
  { s.issue w with inReset := false, inputs := .complete :: s.inputs }

end Sys2Proof.Machine
end

