-- ==== Sys2Proof/Machine/Step.lean ====
section
/-! DEFINITION. The step of the machine, and where its next command stands. -/

namespace Sys2Proof.Machine

/-- One step of the machine: one move of one agent (Machine/Sequencer.lean). -/
def step (s : State) : Host.Outcome State Fault Refusal := s.advance

/-- `s` with the command word of `w` in flight and its completion the next move: what a host's CMD write of that word does, since the
core fetches nothing (R27, R30, log 5). Bits above `nbits` are 0. -/
def State.withFetchWord (s : State) (nbits w : Nat) : State := s.issueNext (BitVec.ofNat 32 (w % 2 ^ nbits))

end Sys2Proof.Machine
end

