-- ==== Sys2Proof/Machine/Assembler.lean ====
section
/-! DEFINITION. The assembler syntax of one line of a host program (R62 to R64 of 30_encoding.md), on lists of characters. It is the
host's, not the core's: a command line stands for the write of its word to CMD, a macro for its accesses. -/

namespace Sys2Proof.Machine

/-- "A `;` starts a comment." -/
def stripComment : List Char → List Char
  | [] => []
  | c :: cs => if c = ';' then [] else c :: stripComment cs

/-- A Latin capital as its small letter: mnemonics are case-insensitive. -/
def lowerChar (c : Char) : Char := if 'A' ≤ c ∧ c ≤ 'Z' then Char.ofNat (c.toNat + 32) else c

/-- Put a finished token before the others; an empty one is none. -/
def pushToken (cur : List Char) (rest : List (List Char)) : List (List Char) :=
  if cur.isEmpty then rest else cur.reverse :: rest

/-- The tokens of a line: blanks separate them and a comma is one of its own. `cur` is the token being read, backwards. -/
def tokenize : List Char → List Char → List (List Char)
  | [], cur => pushToken cur []
  | c :: cs, cur =>
    if c = ' ' ∨ c = '\t' then pushToken cur (tokenize cs [])
    else if c = ',' then pushToken cur ([','] :: tokenize cs [])
    else tokenize cs (c :: cur)

/-- The value of decimal digits, after `acc`. -/
def parseDigits : List Char → Nat → Option Nat
  | [], acc => some acc
  | c :: cs, acc => if '0' ≤ c ∧ c ≤ '9' then parseDigits cs (10 * acc + (c.toNat - '0'.toNat)) else none

/-- A decimal natural number: one digit at least. -/
def parseNat (t : List Char) : Option Nat := if t.isEmpty then none else parseDigits t 0

/-- A decimal integer, with `-` before a negative one. -/
def parseInt : List Char → Option Int
  | '-' :: t => (parseNat t).map fun n => -(n : Int)
  | t => (parseNat t).map fun n => (n : Int)

/-- The commands written as a mnemonic alone, in small letters (R62, R63). -/
def plainMnemonics : List (List Char × Instr) :=
  [(['a', 'd', 'd'], .add), (['s', 'u', 'b'], .sub), (['n', 'e', 'g'], .neg), (['a', 'b', 's'], .abs),
   (['m', 'u', 'l'], .mul), (['d', 'i', 'v'], .div), (['m', 'o', 'd'], .mod), (['i', 's', 'q', 'r', 't'], .isqrt),
   (['d', 'a', 'd', 'd'], .dadd), (['d', 's', 'u', 'b'], .dsub), (['d', 'm', 'u', 'l'], .dmul),
   (['d', 'd', 'i', 'v'], .ddiv), (['d', 'n', 'o', 'r', 'm'], .dnorm)] ++
  [(['d', 'c', 'e', 'i', 'l'], .dceil), (['d', 'f', 'l', 'o', 'o', 'r'], .dfloor), (['d', 't', 'r', 'u', 'n', 'c'], .dtrunc)]

/-- The names of the rounding modes, as R59 spells them. -/
def modeNames : List (List Char × RoundingMode) :=
  [(['T', 'o', 'N', 'e', 'a', 'r', 'e', 's', 't'], .toNearest),
   (['T', 'o', 'N', 'e', 'a', 'r', 'e', 's', 't', 'T', 'i', 'e', 's', 'A', 'w', 'a', 'y'], .toNearestTiesAway),
   (['T', 'o', 'Z', 'e', 'r', 'o'], .toZero),
   (['T', 'o', 'P', 'o', 's', 'i', 't', 'i', 'v', 'e', 'I', 'n', 'f', 'i', 'n', 'i', 't', 'y'], .toPositiveInfinity),
   (['T', 'o', 'N', 'e', 'g', 'a', 't', 'i', 'v', 'e', 'I', 'n', 'f', 'i', 'n', 'i', 't', 'y'], .toNegativeInfinity)]

/-- `SCL10 k`: k a decimal integer 0 … 38. -/
def assembleScl10 (k : List Char) : Option Instr :=
  match parseNat k with
  | some n => if n ≤ Config.lastPower then some (.scl10 n) else none
  | none => none

/-- `DRND places, mode`: places a decimal integer −128 … 127, mode one of the names of R59. -/
def assembleDrnd (places mode : List Char) : Option Instr :=
  match parseInt places, modeNames.lookup mode with
  | some p, some m => if -128 ≤ p ∧ p ≤ 127 then some (drndInstr p m) else none
  | _, _ => none

/-- One command line (R62). -/
def assembleInstr (line : List Char) : Option Instr :=
  match tokenize (stripComment line) [] with
  | [m] => plainMnemonics.lookup (m.map lowerChar)
  | [m, k] => if m.map lowerChar = ['s', 'c', 'l', '1', '0'] then assembleScl10 k else none
  | [m, places, [','], mode] => if m.map lowerChar = ['d', 'r', 'n', 'd'] then assembleDrnd places mode else none
  | _ => none

/-- The word of a command line. -/
def assemble (line : List Char) : Option Word := (assembleInstr line).map encode

/-! ## The host's macros with their values (R64) -/

/-- "a WideInteger written as a signed decimal". -/
def parseWide (t : List Char) : Option Quad :=
  match parseInt t with
  | some v => if -(2 ^ 127) ≤ v ∧ v ≤ 2 ^ 127 - 1 then some (u128 v) else none
  | none => none

/-- The image of the digits `whole.frac`: "mantissa of the digits, scale the number of fraction digits, no normalization". -/
def imageOf (neg : Bool) (whole frac : List Char) : Option Quad :=
  match parseNat (whole ++ frac) with
  | some m =>
    if m < Config.mantissaBound ∧ frac.length ≤ Config.maxScale then some (enc ⟨neg, m, frac.length⟩) else none
  | none => none

/-- The digits of a decimal with or without a point. -/
def parseUnsignedDec (neg : Bool) (t : List Char) : Option Quad :=
  imageOf neg (t.takeWhile (· ≠ '.')) ((t.dropWhile (· ≠ '.')).drop 1)

/-- What stands between the quotes of `d"…"`. -/
def parseDec : List Char → Option Quad
  | '-' :: t => parseUnsignedDec true t
  | t => parseUnsignedDec false t

/-- A 128-bit value: a signed decimal, or `d"…"`, an exact register image. -/
def parseValue : List Char → Option Quad
  | 'd' :: '"' :: t => if t.getLast? = some '"' then parseDec t.dropLast else none
  | t => parseWide t

/-- The accesses of one line: a command's CMD write, or the macro `LDA v`, `LDB v` or `RDR`. `WAIT` is no fixed list (`macroWait`). -/
def assembleLine (line : List Char) : Option (List Input) :=
  match assemble line with
  | some w => some [macroIssue w]
  | none =>
    match tokenize (stripComment line) [] with
    | [m] => if m.map lowerChar = ['r', 'd', 'r'] then some macroRdr else none
    | [m, v] =>
      if m.map lowerChar = ['l', 'd', 'a'] then (parseValue v).map macroLda
      else if m.map lowerChar = ['l', 'd', 'b'] then (parseValue v).map macroLdb
      else none
    | _ => none

end Sys2Proof.Machine
end

