-- ==== Sys2Proof/Machine/Datapath.lean ====
section
/-! DEFINITION. Reference datapaths of the six units (R2, R3 of 00_scope.md; R69, R72, R73 of 40_wide_integer.md; R93 of
41_scaled_decimal.md; R113 of 42_rounding.md). No command's meaning uses them: "no rule of this spec depends on which internal
datapath computes it" (R3). The obligations say that each gives the meaning's result. -/

namespace Sys2Proof.Machine

/-! ## Adder/subtractor on 32-bit words (R2, R93) -/

/-- The `n` 32-bit words of a magnitude, least significant first. -/
def magnitudeWords : Nat → Nat → List Word
  | 0, _ => []
  | n + 1, m => BitVec.ofNat 32 m :: magnitudeWords n (m / 2 ^ 32)

/-- The magnitude that words stand for, least significant first. -/
def wordsMagnitude : List Word → Nat
  | [] => 0
  | w :: ws => w.toNat + 2 ^ 32 * wordsMagnitude ws

/-- Word-by-word addition with the carry going up. -/
def addWords : List Word → List Word → Bool → List Word
  | x :: xs, y :: ys, c =>
    BitVec.ofNat 32 (x.toNat + y.toNat + c.toNat) :: addWords xs ys (decide (2 ^ 32 ≤ x.toNat + y.toNat + c.toNat))
  | _, _, _ => []

/-- Word-by-word subtraction with the borrow going up. -/
def subWords : List Word → List Word → Bool → List Word
  | x :: xs, y :: ys, c =>
    BitVec.ofNat 32 (2 ^ 32 + x.toNat - y.toNat - c.toNat) :: subWords xs ys (decide (x.toNat < y.toNat + c.toNat))
  | _, _, _ => []

/-! ## Multiplier on 32-bit halves (R69, C7 of 90_conflicts.md) -/

/-- The partial product of word i of A and word j of B, at its weight. -/
def partialProduct (a b : Quad) (i j : Fin 4) : Nat :=
  (quadWord a i).toNat * (quadWord b j).toNat * 2 ^ (32 * (i.val + j.val))

/-- The ten partial products whose weight is below 2^128, added up and cut to 128 bits: "the products of every pair of halves whose
weights sum below 2^128" (R69). -/
def mulByHalves (a b : Quad) : Quad :=
  BitVec.ofNat 128
    (partialProduct a b 0 0 + partialProduct a b 0 1 + partialProduct a b 0 2 + partialProduct a b 0 3
      + partialProduct a b 1 0 + partialProduct a b 1 1 + partialProduct a b 1 2
      + partialProduct a b 2 0 + partialProduct a b 2 1 + partialProduct a b 3 0)

/-! ## Divider, three tiers (R72) -/

/-- `|s128(X)|` as an unsigned 128-bit value (MIN gives 2^127). -/
def magnitude (x : Quad) : Nat := (s128 x).natAbs

/-- A value that fits in 64 bits as a signed integer. -/
def fits64 (x : Quad) : Bool := decide (-(2 ^ 63) ≤ s128 x) && decide (s128 x < 2 ^ 63)

/-- "the combined sign re-applied": the two's-complement negation of the quotient when the signs differ. -/
def applySign (negative : Bool) (q : Nat) : Quad := if negative then u128 (-(q : Int)) else u128 q

/-- Tier (b): a 64-bit divisor, "the high word first and then 32-bit chunks". -/
def chunkDivide (n d : Nat) : Nat :=
  let hi := n / 2 ^ 64
  let t1 := hi % d * 2 ^ 32 + n / 2 ^ 32 % 2 ^ 32
  let t0 := t1 % d * 2 ^ 32 + n % 2 ^ 32
  hi / d * 2 ^ 64 + t1 / d * 2 ^ 32 + t0 / d

/-- Tier (c), the loop of R72: `for i = 127 downto 0: r <- 2·r + n[i]; if r ≥ d: r <- r − d; q[i] <- 1`; gives (q, r). The first
argument is the number of bits still to come. -/
def longDivideLoop (n d : Nat) : Nat → Nat → Nat → Nat × Nat
  | 0, q, r => (q, r)
  | i + 1, q, r =>
    let r' := 2 * r + n / 2 ^ i % 2
    if d ≤ r' then longDivideLoop n d i (q + 2 ^ i) (r' - d) else longDivideLoop n d i q r'

/-- Tier (c): binary long division, 128 iterations. -/
def longDivide (n d : Nat) : Nat := (longDivideLoop n d 128 0 0).1

/-- The divider: the tier by the operands' sizes, on magnitudes, and the combined sign (R72). -/
def dividerQuotient (a b : Quad) : Quad :=
  applySign (signBit a ^^ signBit b)
    (if fits64 a && fits64 b then magnitude a / magnitude b
     else if magnitude b < 2 ^ 64 then chunkDivide (magnitude a) (magnitude b)
     else longDivide (magnitude a) (magnitude b))

/-! ## Heron's method (R73) -/

/-- The seed `2^(floor(L/2))`, L the index of the highest set bit plus one. -/
def heronSeed (n : Nat) : Nat := 2 ^ ((Nat.log2 n + 1) / 2)

/-- One iteration, `x ← (x + n/x) / 2`. -/
def heronNext (n x : Nat) : Nat := (x + n / x) / 2

/-- The loop: it stops at a fixed point, or at an oscillation between two values with the smaller, or at the iteration cap. -/
def heronLoop (n : Nat) : Nat → Option Nat → Nat → Nat
  | 0, _, x => x
  | cap + 1, prev, x =>
    if heronNext n x = x then x
    else if prev = some (heronNext n x) then min x (heronNext n x)
    else heronLoop n cap (some x) (heronNext n x)

/-- The source's method with its special case for 0 (D20). -/
def heronSqrt (cap n : Nat) : Nat := if n = 0 then 0 else heronLoop n cap none (heronSeed n)

/-! ## The rounding state machine (R113) -/

/-- The stages of R113, each with what it has computed so far. -/
inductive RoundStage where
  | decode (x : Quad)
  | count (d : Dec)
  | extract (d : Dec) (n : Nat)
  | decide (d : Dec) (digit rest t : Nat) (any : Bool)
  | increment (g : Bool) (t : Nat) (inc : Bool)
  | normalize (d : Dec)
  | write (res : CmdResult)
deriving DecidableEq, Repr

/-- One transition of the machine for DRND places, mode. -/
def RoundStage.next (places : Int) (mode : RoundingMode) : RoundStage → RoundStage
  | .decode x =>
    match dec x with
    | none => .write (.raise .badOpnd)
    | some d => .count d
  | .count d =>
    if d.scale ≤ effectivePlaces places then .normalize d else .extract d (d.scale - effectivePlaces places)
  | .extract d n => .decide d (roundingDigit d.mant n) (removedRest d.mant n) (truncatedMantissa d.mant n) (anyRemoved d.mant n)
  | .decide d digit rest t any => .increment d.neg t (increments mode d.neg digit rest t any)
  | .increment g t inc => .normalize ⟨g, if inc then t + 1 else t, effectivePlaces places⟩
  | .normalize d => .write (.complete (enc (decNormalize d)))
  | .write res => .write res

/-- The stage after a number of transitions. -/
def RoundStage.run (places : Int) (mode : RoundingMode) : Nat → RoundStage → RoundStage
  | 0, st => st
  | n + 1, st => RoundStage.run places mode n (st.next places mode)

end Sys2Proof.Machine
end

