-- ==== Sys2Proof/Safety.lean ====
section
/-! DEFINITION. What counts as a safe move, a state that runs reach, and a current result, in the terms the statements use. -/

namespace Sys2Proof.Machine

/-- Every register of R20 is at its reset value (R33). -/
def State.AtReset (s : State) : Prop :=
  s.a = 0 ∧ s.b = 0 ∧ s.r = 0 ∧ s.la = 0 ∧ s.lb = 0 ∧ s.lcmd = 0 ∧ s.busy = false ∧ s.err = .none

/-- No command has completed since reset: the latches, R and ERR are at their reset values. -/
def State.NothingIssued (s : State) : Prop :=
  s.la = 0 ∧ s.lb = 0 ∧ s.lcmd = 0 ∧ s.r = 0 ∧ s.err = .none

/-- R and ERR are the outcome of the latched command on the latched operands: performing it once more would change nothing. -/
def State.ResultsCurrent (s : State) : Prop := s.perform = .next s

/-- The invariant of the machine: while reset is asserted every register is at its reset value (R140), and whenever BUSY = 0 the
results are those of the last command, or none was issued since reset (R28, R49). -/
def State.Inv (s : State) : Prop :=
  (s.inReset = true → s.AtReset) ∧ (s.busy = false → s.NothingIssued ∨ s.ResultsCurrent)

/-- The host may make this move in this state: an access inside the window that is ignored in reset, or accepted (R43) and not a CMD
write while BUSY = 1 (R145). The core's and the platform's moves are always open. -/
def State.allows (s : State) : Input → Bool
  | .read addr width =>
    match windowOffset addr with
    | none => false
    | some off => s.inReset || acceptedAccess width off
  | .write addr width _ =>
    match windowOffset addr with
    | none => false
    | some off => s.inReset || (acceptedAccess width off && !(windowReg off == .cmd && s.busy))
  | .complete | .assertReset | .releaseReset => true

/-- A host access that R146 and R144 allow at any time, a command in flight or not: a 32-bit aligned read, or such a write to any
offset but CMD's. -/
def Input.harmless : Input → Bool
  | .read addr width =>
    match windowOffset addr with
    | none => false
    | some off => acceptedAccess width off
  | .write addr width _ =>
    match windowOffset addr with
    | none => false
    | some off => acceptedAccess width off && !(windowReg off == .cmd)
  | .complete | .assertReset | .releaseReset => false

/-- The next move is a host write that a command's operand at `base` takes: 32 bits wide, at one of its words, outside reset (R45). -/
def State.OperandMove (s : State) (base : Nat) : Prop :=
  s.inReset = false ∧ ∃ (i : Fin 4) (data : BitVec 64) (rest : List Input),
    s.inputs = .write (Config.coreBase + (base + 4 * i.val)) .w32 data :: rest

/-- The next move is a CMD write that issues a command: outside reset, BUSY = 0 (R27). -/
def State.IssueMove (s : State) : Prop :=
  s.inReset = false ∧ s.busy = false ∧ ∃ (data : BitVec 64) (rest : List Input),
    s.inputs = .write (Config.coreBase + 0x30) .w32 data :: rest

/-- The next move is the completion of a command in flight: the core's, or no input is left (R27, R149, log 3). -/
def State.CompletionMove (s : State) : Prop :=
  s.inReset = false ∧ s.busy = true ∧ (s.inputs = [] ∨ ∃ rest, s.inputs = .complete :: rest)

/-- The next move asserts reset, or releases it while it is asserted (R140). -/
def State.ResetMove (s : State) : Prop :=
  (∃ rest, s.inputs = .assertReset :: rest) ∨ (s.inReset = true ∧ ∃ rest, s.inputs = .releaseReset :: rest)

/-- The commands that read B as well as A (R58). -/
def readsB : Instr → Bool
  | .add | .sub | .mul | .div | .mod | .dadd | .dsub | .dmul | .ddiv => true
  | .neg | .abs | .isqrt | .scl10 _ | .drnd _ _ | .dnorm | .dceil | .dfloor | .dtrunc => false

/-- The decimal commands (R58: opcodes 0x11 … 0x16). -/
def isDecimal : Instr → Bool
  | .dadd | .dsub | .dmul | .ddiv | .drnd _ _ | .dnorm | .dceil | .dfloor | .dtrunc => true
  | .add | .sub | .neg | .abs | .mul | .div | .mod | .isqrt | .scl10 _ => false

/-- A decimal with no trailing zero digit at a non-zero scale, and, if it is zero, the canonical zero (R87). -/
def Dec.Canonical (d : Dec) : Prop := (d.mant = 0 → d.neg = false ∧ d.scale = 0) ∧ (d.scale ≠ 0 → d.mant % 10 ≠ 0)

/-- A decimal image as a command may write it: it decodes, and to a canonical decimal (R26, R87). -/
def CanonicalImage (x : Quad) : Prop := ∃ d, dec x = some d ∧ d.Canonical

/-- The instruction, run on the latched operands `a` and `b` in any state, answers a next state: R holds `v`, ERR is NONE, BUSY is 0,
and everything else is as it was (R23, R27). -/
def Completes (i : Instr) (a b v : Quad) : Prop :=
  ∀ s : State, s.la = a → s.lb = b → exec i s = .next { s with r := v, err := .none, busy := false }

/-- The instruction, run on the latched operands `a` and `b` in any state, takes the error entry: ERR holds the code, BUSY is 0, and
everything else is as it was, R too (R125). -/
def Raises (i : Instr) (a b : Quad) (e : ErrCode) : Prop :=
  ∀ s : State, s.la = a → s.lb = b → exec i s = .next { s with err := e, busy := false }

/-- A rational rounded to an integer under one of the five modes, as mathematics has it (R59, R112). -/
def roundValue (mode : RoundingMode) (v : ℚ) : ℤ :=
  match mode with
  | .toNearest =>
    if v - ⌊v⌋ < 1 / 2 then ⌊v⌋ else if 1 / 2 < v - ⌊v⌋ then ⌊v⌋ + 1 else if ⌊v⌋ % 2 = 0 then ⌊v⌋ else ⌊v⌋ + 1
  | .toNearestTiesAway => if v < 0 then -⌊-v + 1 / 2⌋ else ⌊v + 1 / 2⌋
  | .toZero => if v < 0 then ⌈v⌉ else ⌊v⌋
  | .toPositiveInfinity => ⌈v⌉
  | .toNegativeInfinity => ⌊v⌋

/-- A number without its leading decimal digit (R91). -/
def dropLeadingDigit (m : Nat) : Nat := m % 10 ^ Nat.log 10 m

/-- The signed magnitude of a decimal lifted to the scale `s` (R92): `±m × 10^(s − scale)`. -/
def Dec.lifted (d : Dec) (s : Nat) : Int := (if d.neg then -1 else 1) * (d.mant * 10 ^ (s - d.scale) : Nat)

end Sys2Proof.Machine
end

