-- ==== Sys2Proof/Certificates/Slice0/Obligations.lean ====
section
/-! DEFINITION. The statements about the core, from the spec's numbered rules. `Completes i a b v` and `Raises i a b e` (Safety.lean) say
that `exec i s` answers a next state for EVERY state s with `s.la = a` and `s.lb = b`, and name that whole next state: R or ERR as
given, BUSY = 0, and every other register and field as it was (the frame). -/

open Sys2Proof Sys2Proof.Machine

/-! ## Encoding and decoding -/

/-- Words written out from the encodings of R58, R62 and R63, and what they decode to; the assembler gives the words R62 names. -/
def Obligations.SampleWordsDecodeAndAssemble : Prop :=
  decode 0b00000000_00000000_00000000_00000001#32 = .ok .add ∧
  decode 0b00000000_00000000_00000000_00000110#32 = .ok .div ∧
  decode 0b00000000_00000000_00000000_00001000#32 = .ok .isqrt ∧
  decode 0b00000000_00100110_00000000_00001001#32 = .ok (.scl10 38) ∧
  decode 0b00000000_00000000_00000000_00010011#32 = .ok .dmul ∧
  decode 0b00000000_11111101_00000001_00010101#32 = .ok (.drnd (-3) .toNearestTiesAway) ∧
  decode 0b00000000_00000000_00000011_00010101#32 = .ok .dceil ∧
  decode 0b00000000_00000000_00000000_00010110#32 = .ok .dnorm ∧
  assemble ['S', 'C', 'L', '1', '0', ' ', '3', '8'] = some 0x00260009 ∧
  assemble ['d', 'd', 'i', 'v', ' ', ';', ' ', 'x'] = some 0x00000014 ∧
  assemble ['D', 'R', 'N', 'D', ' ', '-', '3', ',', ' ', 'T', 'o', 'Z', 'e', 'r', 'o'] = some 0x00FD0215

/-- R61, the encoder and the decoder agree: every well-formed instruction comes back from its word, with every operand at every value
the encoding admits; and the three DRND forms that share a word with a pseudo-instruction (R63) have that word. -/
def Obligations.DecodeOfEncodeIsTheInstruction : Prop :=
  (∀ i : Instr, i.WellFormed → decode (encode i) = .ok i) ∧
  (∀ (places : Int) (mode : RoundingMode), -128 ≤ places → places ≤ 127 →
    decode (encode (.drnd places mode)) = .ok (drndInstr places mode) ∧
    encode (drndInstr places mode) = encode (.drnd places mode))

/-- R61, the other direction: a word that decodes is the word of the instruction it decodes to, which is well formed. So no two words
stand for one instruction, and no bit of a word is ignored. -/
def Obligations.EncodeOfDecodeIsTheWord : Prop :=
  ∀ (w : Word) (i : Instr), decode w = .ok i → i.WellFormed ∧ encode i = w

/-- R60: a command word is illegal exactly when one of (a) to (f) holds, said on the bits of the word; and an illegal word ends with
ILLEGAL whatever the operands are, R unchanged. -/
def Obligations.IllegalWordsAreThoseOfR60 : Prop :=
  (∀ w : Word,
    (∃ e, decode w = .error e) ↔
      ((w.extractLsb' 0 8).toNat ∉
          [0x01, 0x02, 0x03, 0x04, 0x05, 0x06, 0x07, 0x08, 0x09, 0x11, 0x12, 0x13, 0x14, 0x15, 0x16]) ∨
      (w.extractLsb' 24 8 ≠ 0 ∨ w.extractLsb' 11 5 ≠ 0) ∨
      (w.extractLsb' 0 8 ≠ 0x15 ∧ w.extractLsb' 8 3 ≠ 0) ∨
      (w.extractLsb' 0 8 = 0x15 ∧ (w.extractLsb' 8 3).toNat ∈ [5, 6, 7]) ∨
      (w.extractLsb' 0 8 ≠ 0x09 ∧ w.extractLsb' 0 8 ≠ 0x15 ∧ w.extractLsb' 16 8 ≠ 0) ∨
      (w.extractLsb' 0 8 = 0x09 ∧ 38 < (w.extractLsb' 16 8).toNat)) ∧
  (∀ (s : State) (e : Illegal), decode s.lcmd = .error e → s.perform = .next { s with err := .illegal, busy := false })

/-- R63: the three pseudo-instructions, their encodings, and that each is the DRND it stands for: the same word, and the same
completion in every state. That the names stand for these modes is the spec's general knowledge (D32). -/
def Obligations.PseudoInstructionsAreDrnd : Prop :=
  (encode .dceil = 0x00000315 ∧ encode .dfloor = 0x00000415 ∧ encode .dtrunc = 0x00000215) ∧
  (encode (.drnd 0 .toPositiveInfinity) = 0x00000315 ∧ encode (.drnd 0 .toNegativeInfinity) = 0x00000415 ∧
    encode (.drnd 0 .toZero) = 0x00000215) ∧
  (decode 0x00000315 = .ok .dceil ∧ decode 0x00000415 = .ok .dfloor ∧ decode 0x00000215 = .ok .dtrunc) ∧
  (∀ s : State, exec .dceil s = exec (.drnd 0 .toPositiveInfinity) s ∧
    exec .dfloor s = exec (.drnd 0 .toNegativeInfinity) s ∧ exec .dtrunc s = exec (.drnd 0 .toZero) s) ∧
  (∀ (a b : Quad) (x : Dec), dec a = some x →
    Completes .dceil a b (enc (decRound 0 .toPositiveInfinity x)) ∧
    Completes .dfloor a b (enc (decRound 0 .toNegativeInfinity x)) ∧ Completes .dtrunc a b (enc (decRound 0 .toZero x)))

/-! ## WideInteger commands -/

/-- R65, ADD: the two-word sum, modulo 2^128, for signed and unsigned readings alike, with its encoding, corner cases and example. -/
def Obligations.AddIsTheSumModulo2Pow128 : Prop :=
  encode .add = 0x00000001 ∧
  (∀ a b : Quad, Completes .add a b (u128 (s128 a + s128 b)) ∧ Completes .add a b (u128 (a.toNat + b.toNat))) ∧
  (∀ a b : Quad, ∃ v, Completes .add a b v ∧ quadLo v = quadLo a + quadLo b ∧
    quadHi v = quadHi a + quadHi b + (if (quadLo a).toNat + (quadLo b).toNat < 2 ^ 64 then 0 else 1)) ∧
  Completes .add Quad.max 1 Quad.min ∧
  (∀ a : Quad, Completes .add a 0 a) ∧
  Completes .add 0x0000000000000000FFFFFFFFFFFFFFFF#128 1 0x00000000000000010000000000000000#128

/-- R66, SUB. -/
def Obligations.SubIsTheDifferenceModulo2Pow128 : Prop :=
  encode .sub = 0x00000002 ∧
  (∀ a b : Quad, Completes .sub a b (u128 (s128 a - s128 b)) ∧ Completes .sub a b (u128 ((a.toNat : Int) - b.toNat))) ∧
  (∀ a b : Quad, ∃ v, Completes .sub a b v ∧ quadLo v = quadLo a - quadLo b ∧
    quadHi v = quadHi a - quadHi b - (if (quadLo a).toNat < (quadLo b).toNat then 1 else 0)) ∧
  Completes .sub Quad.min 1 Quad.max ∧
  Completes .sub 0 1 0xFFFFFFFFFFFFFFFFFFFFFFFFFFFFFFFF#128 ∧
  (∀ a : Quad, Completes .sub a a 0) ∧
  Completes .sub 0x00000000000000010000000000000000#128 1 0x0000000000000000FFFFFFFFFFFFFFFF#128

/-- R67, NEG: `u128(~A + 1)`, which is `u128(−A)`; 0 and MIN stay, and negating twice gives A back. -/
def Obligations.NegIsTwosComplement : Prop :=
  encode .neg = 0x00000003 ∧
  (∀ a b : Quad, Completes .neg a b (~~~a + 1) ∧ Completes .neg a b (u128 (-s128 a))) ∧
  (∀ b : Quad, Completes .neg 0 b 0 ∧ Completes .neg Quad.min b Quad.min) ∧
  (∀ a b c v : Quad, Completes .neg a b v → Completes .neg v c a) ∧
  (∀ b : Quad, Completes .neg 1 b 0xFFFFFFFFFFFFFFFFFFFFFFFFFFFFFFFF#128)

/-- R68, ABS: conditional negation; the absolute value of every operand but MIN, which stays MIN (the spec's inference, "[derived: from
rule R67]"). -/
def Obligations.AbsNegatesTheNegative : Prop :=
  encode .abs = 0x00000004 ∧
  (∀ a b : Quad, a.getLsbD 127 = true → Completes .abs a b (~~~a + 1)) ∧
  (∀ a b : Quad, a.getLsbD 127 = false → Completes .abs a b a) ∧
  (∀ a b : Quad, Completes .abs a b (u128 (s128 a).natAbs)) ∧
  (∀ b : Quad, Completes .abs Quad.min b Quad.min ∧ Completes .abs 0 b 0 ∧
    Completes .abs 0xFFFFFFFFFFFFFFFFFFFFFFFFFFFFFFFB#128 b 5)

/-- R69, MUL: the low 128 bits of the product, of signed and unsigned readings alike. -/
def Obligations.MulIsTheLowHalfOfTheProduct : Prop :=
  encode .mul = 0x00000005 ∧
  (∀ a b : Quad, Completes .mul a b (u128 (a.toNat * b.toNat)) ∧ Completes .mul a b (u128 (s128 a * s128 b))) ∧
  (∀ a : Quad, Completes .mul a 1 a ∧ Completes .mul a 0 0) ∧
  Completes .mul Quad.min 0xFFFFFFFFFFFFFFFFFFFFFFFFFFFFFFFF#128 Quad.min ∧
  Completes .mul 0x00000000000000010000000000000000#128 0x00000000000000010000000000000000#128 0 ∧
  Completes .mul 0x0000000000000000FFFFFFFFFFFFFFFF#128 0x0000000000000000FFFFFFFFFFFFFFFF#128
    0xFFFFFFFFFFFFFFFE0000000000000001#128 ∧
  Completes .mul 0xFFFFFFFFFFFFFFFFFFFFFFFFFFFFFFFD#128 7 0xFFFFFFFFFFFFFFFFFFFFFFFFFFFFFFEB#128

/-- R70, DIV: OVERFLOW for a zero divisor, else the exact quotient rounded toward zero (`Int.tdiv`), modulo 2^128; with its corner
cases (D19) and the source's example. -/
def Obligations.DivTruncatesTowardZero : Prop :=
  encode .div = 0x00000006 ∧
  (∀ a : Quad, Raises .div a 0 .overflow) ∧
  (∀ a b : Quad, b ≠ 0 → Completes .div a b (u128 (Int.tdiv (s128 a) (s128 b)))) ∧
  Completes .div Quad.min 0xFFFFFFFFFFFFFFFFFFFFFFFFFFFFFFFF#128 Quad.min ∧
  (∀ a b : Quad, b ≠ 0 → -(2 ^ 63) ≤ s128 a → s128 a < 2 ^ 63 → -(2 ^ 63) ≤ s128 b → s128 b < 2 ^ 63 →
    ∃ v, Completes .div a b v ∧ s128 v = Int.tdiv (s128 a) (s128 b)) ∧
  Completes .div 0xFFFFFFFFFFFFFFFF8000000000000000#128 0xFFFFFFFFFFFFFFFFFFFFFFFFFFFFFFFF#128
    0x00000000000000008000000000000000#128 ∧
  (∀ b : Quad, b ≠ 0 → Completes .div 0 b 0) ∧
  (∀ a : Quad, Completes .div a 1 a) ∧
  (∀ a : Quad, a ≠ 0 → Completes .div a a 1) ∧
  (∀ a b : Quad, (s128 a).natAbs < (s128 b).natAbs → Completes .div a b 0) ∧
  Completes .div 0x0F0BDC21ABB48DB201E86D4000000000#128 0x000000000000000013A902D3D7CDAAA9#128
    0x0000000000000000C3EBF5339583C3D4#128

/-- R71, MOD: OVERFLOW for a zero divisor, else the remainder of the truncated division: smaller than the divisor, zero or of the
dividend's sign (the spec's inference, "[derived: from rule R70 and the formula]"), and, modulo 2^128, the dividend less DIV's own
quotient times the divisor. -/
def Obligations.ModIsTheRemainderOfDiv : Prop :=
  encode .mod = 0x00000007 ∧
  (∀ a : Quad, Raises .mod a 0 .overflow) ∧
  (∀ a b : Quad, b ≠ 0 → ∃ r : Int, Completes .mod a b (u128 r) ∧ r = s128 a - Int.tdiv (s128 a) (s128 b) * s128 b ∧
    s128 (u128 r) = r ∧ r.natAbs < (s128 b).natAbs ∧ (r = 0 ∨ r.sign = (s128 a).sign)) ∧
  (∀ a b q : Quad, b ≠ 0 → Completes .div a b q → Completes .mod a b (a - q * b)) ∧
  Completes .mod Quad.min 0xFFFFFFFFFFFFFFFFFFFFFFFFFFFFFFFF#128 0 ∧
  (∀ a : Quad, Completes .mod a 1 0) ∧
  (∀ a : Quad, a ≠ 0 → Completes .mod a a 0) ∧
  Completes .mod 0xFFFFFFFFFFFFFFFFFFFFFFFFFFFFFFF9#128 2 0xFFFFFFFFFFFFFFFFFFFFFFFFFFFFFFFF#128 ∧
  Completes .mod 7 0xFFFFFFFFFFFFFFFFFFFFFFFFFFFFFFFE#128 1

/-- R73, ISQRT: DOMAIN for a negative operand, else the unique root of R73's bound. -/
def Obligations.IsqrtIsTheFloorOfTheRoot : Prop :=
  encode .isqrt = 0x00000008 ∧
  (∀ a b : Quad, s128 a < 0 → Raises .isqrt a b .domain) ∧
  (∀ a b : Quad, 0 ≤ s128 a → ∃ r : Nat, Completes .isqrt a b (u128 r) ∧ s128 (u128 r) = r ∧
    (r : Int) ^ 2 ≤ s128 a ∧ s128 a < ((r : Int) + 1) ^ 2) ∧
  (∀ b : Quad, Completes .isqrt 0 b 0 ∧ Completes .isqrt 1 b 1 ∧ Completes .isqrt 2 b 1 ∧ Completes .isqrt 3 b 1 ∧
    Completes .isqrt Quad.max b 0x0000000000000000B504F333F9DE6484#128 ∧ Completes .isqrt 15 b 3 ∧
    Raises .isqrt Quad.min b .domain)

/-- R73, the source's Heron method with the readings R73 gives it (seed `2^floor(L/2)`, truncating divisions, stop at a fixed point or
at an oscillation with the smaller value, 0 by itself): it gives ISQRT's result for every n below 2^127. That it does is R73's own inference
("[derived: from the stated iteration, checked over all n < 5000, …]"). The iteration cap is at least 128, a number the model chose (log 23):
the spec leaves `ISQRT_MAX_ITER` open. -/
def Obligations.HeronMethodGivesIsqrt : Prop :=
  ∀ (n cap : Nat), n < 2 ^ 127 → 128 ≤ cap → ∀ b : Quad, Completes .isqrt (u128 n) b (u128 (heronSqrt cap n))

/-- R74, SCL10 k: `u128(A × P10[k])`, which is `u128(s128(A) × 10^k)`; every word with k above 38 ends with ILLEGAL. -/
def Obligations.Scl10MultipliesByAPowerOfTen : Prop :=
  (∀ k : Nat, k ≤ 38 → encode (.scl10 k) = BitVec.ofNat 32 (k * 2 ^ 16 + 9)) ∧
  (∀ (k : Nat) (a b : Quad), k ≤ 38 →
    Completes (.scl10 k) a b (u128 (a.toNat * (p10 k).toNat)) ∧ Completes (.scl10 k) a b (u128 (s128 a * 10 ^ k))) ∧
  (∀ (k : Nat) (s : State), 38 < k → k < 256 → s.lcmd = BitVec.ofNat 32 (k * 2 ^ 16 + 9) →
    s.perform = .next { s with err := .illegal, busy := false }) ∧
  (∀ a b : Quad, Completes (.scl10 0) a b a) ∧
  (∀ b : Quad, Completes (.scl10 38) 1 b 0x4B3B4CA85A86C47A098A224000000000#128 ∧
    Completes (.scl10 38) 2 b 0x96769950B50D88F41314448000000000#128 ∧
    Completes (.scl10 3) (u128 (-5)) b (u128 (-5000)) ∧ Completes (.scl10 2) 7 b 700)

/-- R31, the ROM: 39 entries, entry k the pattern of 10^k, exactly; 10^38 is the largest power of ten not above 2^127 − 1. -/
def Obligations.PowerTableHoldsThePowersOfTen : Prop :=
  p10Rom.length = 39 ∧
  (∀ k : Nat, k ≤ 38 → p10Rom[k]? = some (p10 k) ∧ p10 k = BitVec.ofNat 128 (10 ^ k) ∧ (p10 k).toNat = 10 ^ k) ∧
  10 ^ 38 ≤ 2 ^ 127 - 1 ∧ 2 ^ 127 - 1 < 10 ^ 39

/-! ## Decimal helpers -/

/-- R85 and R86: DEC answers exactly on the images with scale at most 28 and reserved bits zero, with the fields of R25, and on what a
register can hold DEC and ENC undo each other. -/
def Obligations.DecAndEncAreInverse : Prop :=
  (∀ x : Quad, dec x = none ↔
    (28 < (x.extractLsb' 112 8).toNat ∨ x.extractLsb' 96 16 ≠ 0 ∨ x.extractLsb' 120 7 ≠ 0)) ∧
  (∀ (x : Quad) (d : Dec), dec x = some d →
    d = ⟨x.getLsbD 127, (x.extractLsb' 0 96).toNat, (x.extractLsb' 112 8).toNat⟩ ∧ enc d = x) ∧
  (∀ d : Dec, d.mant < 2 ^ 96 → d.scale ≤ 28 → dec (enc d) = some d ∧
    (enc d).toNat = d.neg.toNat * 2 ^ 127 + d.scale * 2 ^ 112 + d.mant)

/-- R87: NORMALIZE keeps the value, gives the canonical zero for every zero, takes off trailing zero digits only, and leaves none at a
non-zero scale; and every decimal command that completes writes such an image to R. -/
def Obligations.NormalizeIsCanonicalAndKeepsTheValue : Prop :=
  (∀ d : Dec, (decNormalize d).value = d.value) ∧
  (∀ d : Dec, d.mant = 0 → decNormalize d = ⟨false, 0, 0⟩) ∧
  (∀ d : Dec, d.mant ≠ 0 → (decNormalize d).neg = d.neg ∧ ((decNormalize d).scale ≠ 0 → (decNormalize d).mant % 10 ≠ 0) ∧
    ∃ j : Nat, j ≤ d.scale ∧ (decNormalize d).scale = d.scale - j ∧ d.mant = (decNormalize d).mant * 10 ^ j) ∧
  (∀ (i : Instr) (s t : State), isDecimal i = true → exec i s = .next t → t.err = .none → CanonicalImage t.r)

/-- R88 (the spec's inference, "[derived: from rule R87]"): two decimals have one value exactly when NORMALIZE gives the same triple for
both. -/
def Obligations.EqualValuesNormalizeAlike : Prop :=
  ∀ x y : Dec, x.value = y.value ↔ decNormalize x = decNormalize y

/-- R89: RHU is the nearest integer to `m / 10^n`, a tie going up; R90: FIT's steps and its bounds. -/
def Obligations.RhuRoundsHalfUpAndFitNarrows : Prop :=
  (∀ m n : Nat, rhu m n = (2 * m + 10 ^ n) / (2 * 10 ^ n)) ∧
  (∀ m : Nat, rhu m 0 = m) ∧
  (∀ s m : Nat, m < 2 ^ 96 → fit s m = (m, s)) ∧
  (∀ s m : Nat, 2 ^ 96 ≤ m → fit (s + 1) m = fit s (rhu m 1)) ∧
  (∀ m : Nat, fit 0 m = (capTrunc m, 0)) ∧
  (∀ s m : Nat, (fit s m).1 < 2 ^ 96 ∧ (fit s m).2 ≤ s)

/-- R91: CAPTRUNC keeps what fits, else keeps the kk low digits for the largest kk that fits, at least 28 of them; and it is the removal
of the leading decimal digit, one at a time, until the rest is below 2^96. -/
def Obligations.CapTruncDropsLeadingDigits : Prop :=
  (∀ m : Nat, m < 2 ^ 96 → capTrunc m = m) ∧
  (∀ m : Nat, 2 ^ 96 ≤ m → ∃ kk : Nat, 28 ≤ kk ∧ capTrunc m = m % 10 ^ kk ∧ m % 10 ^ kk < 2 ^ 96 ∧
    ∀ k : Nat, m % 10 ^ k < 2 ^ 96 → k ≤ kk) ∧
  (∀ m : Nat, ∃ j : Nat, capTrunc m = dropLeadingDigit^[j] m ∧ dropLeadingDigit^[j] m < 2 ^ 96 ∧
    ∀ i : Nat, i < j → 2 ^ 96 ≤ dropLeadingDigit^[i] m)

/-- R97: the pre-reduction takes nothing when the scales sum to at most 28; else it takes the excess, split as evenly as possible, by one
round-half-up division each, the odd digit off the operand with the larger scale, and the scales then sum to 28. That neither operand
loses more digits than its scale is the spec's inference ("[derived: from rule R85's scale bound]"). -/
def Obligations.PreReductionSplitsTheExcess : Prop :=
  ∀ x y : Dec, x.scale ≤ 28 → y.scale ≤ 28 →
    (x.scale + y.scale ≤ 28 → preReduce x y = (x, y)) ∧
    (28 < x.scale + y.scale → ∃ ra rb : Nat, ra + rb = x.scale + y.scale - 28 ∧ ra ≤ x.scale ∧ rb ≤ y.scale ∧
      (y.scale ≤ x.scale → ra = rb ∨ ra = rb + 1) ∧ (x.scale < y.scale → rb = ra ∨ rb = ra + 1) ∧
      (x.scale = y.scale → ra = rb) ∧
      preReduce x y = (⟨x.neg, rhu x.mant ra, x.scale - ra⟩, ⟨y.neg, rhu y.mant rb, y.scale - rb⟩) ∧
      (preReduce x y).1.scale + (preReduce x y).2.scale = 28)

/-- R99: the scale-up multiplies the dividend by the largest power of ten up to the wanted exponent `k = p − sa + sb` that keeps it at
most 2^127 − 1, and tracks the precision; a non-zero dividend needs no power beyond the table's 10^38. -/
def Obligations.ScaleUpStopsBeforeTheWideIntegerLimit : Prop :=
  ∀ (extra : Nat) (x y : Dec), x.mant < 2 ^ 96 → x.scale ≤ 28 → y.scale ≤ 28 →
    ∃ p k j : Nat, p = min (max x.scale y.scale + extra) 28 ∧ (k : Int) = p - x.scale + y.scale ∧ k ≤ 56 ∧ j ≤ k ∧
      scaleUp extra x y = (x.mant * 10 ^ j, (x.scale : Int) + j - y.scale) ∧
      x.mant * 10 ^ j ≤ 2 ^ 127 - 1 ∧ (j < k → 2 ^ 127 - 1 < x.mant * 10 ^ (j + 1)) ∧
      (x.mant ≠ 0 → j ≤ 38) ∧ (x.mant = 0 → j = k)

/-- R110: EXTRACT splits the mantissa into the truncated part, the rounding digit and the rest; T is also the division by 10 repeated n
times, and `any` says that a removed digit is non-zero. R112: the increment decision, one row per mode. -/
def Obligations.ExtractAndIncrementDecision : Prop :=
  (∀ m n : Nat, 1 ≤ n →
    m = (truncatedMantissa m n * 10 + roundingDigit m n) * 10 ^ (n - 1) + removedRest m n ∧
    roundingDigit m n < 10 ∧ removedRest m n < 10 ^ (n - 1) ∧ (n = 1 → removedRest m n = 0) ∧
    truncatedMantissa m n = (fun v => v / 10)^[n] m ∧
    (anyRemoved m n = true ↔ roundingDigit m n ≠ 0 ∨ removedRest m n ≠ 0)) ∧
  (∀ (g : Bool) (d rest t : Nat) (any : Bool),
    (increments .toNearest g d rest t any = true ↔
      5 < d ∨ (d = 5 ∧ rest ≠ 0) ∨ (d = 5 ∧ rest = 0 ∧ t % 2 = 1)) ∧
    (increments .toNearestTiesAway g d rest t any = true ↔ 5 ≤ d) ∧
    increments .toZero g d rest t any = false ∧
    (increments .toPositiveInfinity g d rest t any = true ↔ g = false ∧ any = true) ∧
    (increments .toNegativeInfinity g d rest t any = true ↔ g = true ∧ any = true))

/-! ## ScaledDecimal commands -/

/-- R94, DNORM. -/
def Obligations.DnormNormalizes : Prop :=
  encode .dnorm = 0x00000016 ∧
  (∀ (a b : Quad) (x : Dec), dec a = some x → Completes .dnorm a b (enc (decNormalize x))) ∧
  (∀ a b : Quad, dec a = none → Raises .dnorm a b .badOpnd) ∧
  (∀ (a b : Quad) (x : Dec), dec a = some x → x.mant = 0 → Completes .dnorm a b 0) ∧
  (∀ a b : Quad, CanonicalImage a → Completes .dnorm a b a) ∧
  (∀ (a b : Quad) (x : Dec), dec a = some x → x.scale = 0 → x.mant ≠ 0 → Completes .dnorm a b a) ∧
  (∀ b : Quad, Completes .dnorm 0x000400000000000000000000000668A0#128 b 0x2A)

/-- R95, DADD: with both mantissas lifted to the larger scale, the signed sum's magnitude goes through FIT and NORMALIZE with the sum's
sign; BADOPND for A, then for B; with its corner cases and the source's example. -/
def Obligations.DaddAlignsAddsAndFits : Prop :=
  encode .dadd = 0x00000011 ∧
  (∀ (a b : Quad) (x y : Dec) (s : Nat) (v : Int), dec a = some x → dec b = some y → s = max x.scale y.scale →
    v = x.lifted s + y.lifted s →
    Completes .dadd a b (enc (decNormalize ⟨decide (v < 0), (fit s v.natAbs).1, (fit s v.natAbs).2⟩))) ∧
  (∀ a b : Quad, dec a = none ∨ dec b = none → Raises .dadd a b .badOpnd) ∧
  (∀ (a b : Quad) (x y : Dec), dec a = some x → dec b = some y → x.value = -y.value → Completes .dadd a b 0) ∧
  Completes .dadd 0x00000000FFFFFFFFFFFFFFFFFFFFFFFF#128 1 0x000000001DD15B6C4CFCEF5890000000#128 ∧
  Completes .dadd 1 0x001C0000000000000000000000000001#128 0x001C0000204FCE5E3E25026110000001#128 ∧
  Completes .dadd 0x0A 0x001C0000000000000000000000000001#128 0x0A ∧
  (∀ (a b : Quad) (x y : Dec), dec a = some x → dec b = some y → y.mant = 0 →
    Completes .dadd a b (enc (decNormalize x))) ∧
  Completes .dadd 0x00010000000000000000000000000001#128 0x00010000000000000000000000000002#128
    0x00010000000000000000000000000003#128

/-- R96, DSUB: DADD with the subtrahend's sign bit inverted; A − A is the canonical zero; with its example. -/
def Obligations.DsubIsDaddOfTheNegated : Prop :=
  encode .dsub = 0x00000012 ∧
  (∀ (a b : Quad) (x y : Dec), dec a = some x → dec b = some y →
    ∃ v, Completes .dsub a b v ∧ Completes .dadd a (b ^^^ Quad.min) v ∧ dec (b ^^^ Quad.min) = some { y with neg := !y.neg }) ∧
  (∀ a b : Quad, dec a = none ∨ dec b = none → Raises .dsub a b .badOpnd) ∧
  (∀ (a : Quad) (x : Dec), dec a = some x → Completes .dsub a a 0) ∧
  (∀ (a b : Quad) (x y : Dec), dec a = some x → dec b = some y → y.mant = 0 →
    Completes .dsub a b (enc (decNormalize x))) ∧
  Completes .dsub 0x0001000000000000000000000000000F#128 0x000200000000000000000000000000E1#128
    0x8002000000000000000000000000004B#128

/-- R98, DMUL: the exact product of the pre-reduced mantissas goes through FIT and NORMALIZE, with the XOR of the signs; a zero product is
the canonical zero; with its corner cases and the source's example. -/
def Obligations.DmulFitsTheExactProduct : Prop :=
  encode .dmul = 0x00000013 ∧
  (∀ (a b : Quad) (x y x' y' : Dec) (p : Nat × Nat), dec a = some x → dec b = some y → preReduce x y = (x', y') →
    p = fit (x'.scale + y'.scale) (x'.mant * y'.mant) → Completes .dmul a b (enc (decNormalize ⟨x.neg ^^ y.neg, p.1, p.2⟩))) ∧
  (∀ a b : Quad, dec a = none ∨ dec b = none → Raises .dmul a b .badOpnd) ∧
  (∀ (a b : Quad) (x y : Dec), dec a = some x → dec b = some y → x.mant = 0 ∨ y.mant = 0 → Completes .dmul a b 0) ∧
  (∀ (a : Quad) (x : Dec), dec a = some x → Completes .dmul a 1 (enc (decNormalize x))) ∧
  Completes .dmul 0x00000000FFFFFFFFFFFFFFFFFFFFFFFF#128 2 0x00000000BCE1F051928DE8355FFFFFFE#128 ∧
  Completes .dmul 0x001C000000000000000000000000000F#128 0x00010000000000000000000000000005#128
    0x001B0000000000000000000000000001#128 ∧
  Completes .dmul 0x001C00006582A5360B14388541B65F28#128 0x001C000057D519ABEBECDE35857AED59#128
    0x001900000046A39732C621B4D0ECA56B#128

/-- R101 (the spec's inference, "[derived: from rules R85 to R100 and R111]"), "Results are exact whenever the exact result has a 96-bit
mantissa at a scale ≤ 28 that the command reaches", where the command loses no digit on the way: DADD and DSUB when the aligned sum is a
mantissa below 2^96 times a power of ten that FIT can drop; DMUL when the pre-reduction keeps both operands' values (it does where the
scales sum to at most 28) and the product is such a multiple. A DMUL whose pre-reduction rounds an operand (R97) is not covered. -/
def Obligations.DecimalResultsAreExactWhenTheyFit : Prop :=
  ∀ (a b : Quad) (x y : Dec) (m e : Nat), dec a = some x → dec b = some y → m < 2 ^ 96 →
    (e ≤ max x.scale y.scale → (x.lifted (max x.scale y.scale) + y.lifted (max x.scale y.scale)).natAbs = m * 10 ^ e →
      ∃ v d, Completes .dadd a b v ∧ dec v = some d ∧ d.value = x.value + y.value) ∧
    (e ≤ max x.scale y.scale → (x.lifted (max x.scale y.scale) - y.lifted (max x.scale y.scale)).natAbs = m * 10 ^ e →
      ∃ v d, Completes .dsub a b v ∧ dec v = some d ∧ d.value = x.value - y.value) ∧
    (x.scale + y.scale ≤ 28 → e ≤ x.scale + y.scale → x.mant * y.mant = m * 10 ^ e →
      ∃ v d, Completes .dmul a b v ∧ dec v = some d ∧ d.value = x.value * y.value) ∧
    (∀ x' y' : Dec, preReduce x y = (x', y') → x'.value = x.value → y'.value = y.value → e ≤ x'.scale + y'.scale →
      x'.mant * y'.mant = m * 10 ^ e → ∃ v d, Completes .dmul a b v ∧ dec v = some d ∧ d.value = x.value * y.value)

/-- DADD and DMUL do not depend on the order of their operands, whatever the alignment, the pre-reduction and the narrowing do. -/
def Obligations.DaddAndDmulCommute : Prop :=
  ∀ a b : Quad,
    (∀ v, Completes .dadd a b v → Completes .dadd b a v) ∧ (∀ e, Raises .dadd a b e → Raises .dadd b a e) ∧
    (∀ v, Completes .dmul a b v → Completes .dmul b a v) ∧ (∀ e, Raises .dmul a b e → Raises .dmul b a e)

/-- R100, DDIV: OVERFLOW for a zero divisor; else one truncating division of the scaled dividend, the shrink loop (i digits, as few as
make the quotient fit, and no more than the tracked precision allows), the return to scale 0 from a negative precision, CAPTRUNC and
NORMALIZE; A / A is 1 for every DIV_EXTRA_PRECISION (the spec's inference, "[derived: n = ma × 10^j, q = 10^j, t = j]"); with its
example. -/
def Obligations.DdivScalesDividesAndShrinks : Prop :=
  encode .ddiv = 0x00000014 ∧
  (∀ a b : Quad, dec a = none ∨ dec b = none → Raises .ddiv a b .badOpnd) ∧
  (∀ (a b : Quad) (x y : Dec), dec a = some x → dec b = some y → y.mant = 0 → Raises .ddiv a b .overflow) ∧
  (∀ (a b : Quad) (x y : Dec) (n : Nat) (t : Int), dec a = some x → dec b = some y → y.mant ≠ 0 →
    scaleUp Config.divExtraPrecision x y = (n, t) →
    (t < 0 → Completes .ddiv a b (enc (decNormalize ⟨x.neg ^^ y.neg, capTrunc (n / y.mant * 10 ^ (-t).toNat), 0⟩))) ∧
    (0 ≤ t → ∃ i : Nat, i ≤ t.toNat ∧ (∀ j : Nat, j < i → 2 ^ 96 ≤ n / y.mant / 10 ^ j) ∧
      (n / y.mant / 10 ^ i < 2 ^ 96 ∨ i = t.toNat) ∧
      Completes .ddiv a b (enc (decNormalize ⟨x.neg ^^ y.neg, capTrunc (n / y.mant / 10 ^ i), t.toNat - i⟩)))) ∧
  (∀ (a : Quad) (x : Dec), dec a = some x → x.mant ≠ 0 → Completes .ddiv a a 1) ∧
  (∀ (a b : Quad) (x y : Dec), dec a = some x → dec b = some y → x.mant = 0 → y.mant ≠ 0 → Completes .ddiv a b 0) ∧
  Completes .ddiv 0x8001000000000000000000000000004B#128 0x00010000000000000000000000000019#128
    0x80000000000000000000000000000003#128

/-- DDIV is the quotient truncated toward zero, never rounded (R100): its magnitude never exceeds the exact quotient's, its sign is the
quotient's; and where the scale-up reaches the wanted precision p and the quotient at p fits 96 bits, it is the exact quotient cut after
p fraction digits; where it does not reach p or does not fit, only the bound and the sign are said. For every value of
DIV_EXTRA_PRECISION. -/
def Obligations.DdivIsTheTruncatedQuotient : Prop :=
  ∀ (a b : Quad) (x y : Dec) (p : Nat), dec a = some x → dec b = some y → y.mant ≠ 0 →
    p = min (max x.scale y.scale + Config.divExtraPrecision) 28 →
    ∃ v d, Completes .ddiv a b v ∧ dec v = some d ∧ |d.value| ≤ |x.value / y.value| ∧ 0 ≤ d.value * (x.value / y.value) ∧
      (x.mant * 10 ^ (p + y.scale - x.scale) ≤ 2 ^ 127 - 1 → ⌊|x.value / y.value| * 10 ^ p⌋ < 2 ^ 96 →
        |d.value| * 10 ^ p = ⌊|x.value / y.value| * 10 ^ p⌋)

/-- R111 and R112, DRND and its pseudo-instructions: the result is the operand's exact value rounded to `max(places, 0)` fraction digits as
mathematics rounds under the mode, normalized; rounding is total. R110's digit reading plays no part in the statement. The modes of DCEIL,
DFLOOR and DTRUNC are the spec's general knowledge ("[from general knowledge, not in source]", R63, D32); that `exec` rounds so for a `places`
outside −128 … 127, which no word gives, is the model's choice (log 17). -/
def Obligations.DrndRoundsTheExactValue : Prop :=
  (∀ (a b : Quad) (x : Dec) (i : Instr) (places : Int) (mode : RoundingMode), dec a = some x →
    (i = .drnd places mode ∨ (i = .dceil ∧ places = 0 ∧ mode = .toPositiveInfinity) ∨
      (i = .dfloor ∧ places = 0 ∧ mode = .toNegativeInfinity) ∨ (i = .dtrunc ∧ places = 0 ∧ mode = .toZero)) →
    ∃ v d, Completes i a b v ∧ dec v = some d ∧ d.Canonical ∧
      d.value * 10 ^ (max places 0).toNat = roundValue mode (x.value * 10 ^ (max places 0).toNat)) ∧
  (∀ (a b : Quad) (places : Int) (mode : RoundingMode), dec a = none → Raises (.drnd places mode) a b .badOpnd ∧
    Raises .dceil a b .badOpnd ∧ Raises .dfloor a b .badOpnd ∧ Raises .dtrunc a b .badOpnd)

/-! ## Errors -/

/-- R124: the checks in their order, and the first that fails decides: ILLEGAL for the word; BADOPND for A, then for B, for the decimal
commands that read them; OVERFLOW for a zero divisor or DOMAIN for the root of a negative value; else the command completes. -/
def Obligations.ErrorChecksInOrder : Prop :=
  ∀ s : State,
    (∀ e, decode s.lcmd = .error e → s.perform = .next (s.raise .illegal)) ∧
    ∀ i, decode s.lcmd = .ok i →
      ((isDecimal i = true ∧ (dec s.la = none ∨ (readsB i = true ∧ dec s.lb = none))) → s.perform = .next (s.raise .badOpnd)) ∧
      ((i = .div ∨ i = .mod) ∧ s.lb = 0 → s.perform = .next (s.raise .overflow)) ∧
      (∀ x y, i = .ddiv → dec s.la = some x → dec s.lb = some y → y.mant = 0 → s.perform = .next (s.raise .overflow)) ∧
      (i = .isqrt ∧ s128 s.la < 0 → s.perform = .next (s.raise .domain)) ∧
      ((isDecimal i = true → dec s.la ≠ none ∧ (readsB i = true → dec s.lb ≠ none)) →
        ((i = .div ∨ i = .mod) → s.lb ≠ 0) → (i = .ddiv → ∀ y, dec s.lb = some y → y.mant ≠ 0) →
        (i = .isqrt → 0 ≤ s128 s.la) → ∃ v, s.perform = .next (s.complete v))

/-- R125: on an error the completion writes ERR and clears BUSY and nothing else. -/
def Obligations.ErrorsWriteOnlyErrAndBusy : Prop :=
  ∀ s : State, ∃ t, s.perform = .next t ∧ (t.err ≠ .none → t = { s with err := t.err, busy := false })

/-- R123: DOMAIN comes from ISQRT of a negative operand, and from nothing else. -/
def Obligations.DomainOnlyFromNegativeIsqrt : Prop :=
  ∀ (i : Instr) (s t : State), exec i s = .next t → (t.err = .domain ↔ i = .isqrt ∧ s128 s.la < 0)

/-- R120 to R122: OVERFLOW comes from a zero divisor of DIV, MOD or DDIV and from nothing else; BADOPND from a decimal command with a
malformed operand and from nothing else, so no WideInteger command raises it; a decoded command never ends with ILLEGAL. -/
def Obligations.OverflowAndBadOperandCauses : Prop :=
  ∀ (i : Instr) (s t : State), i.WellFormed → exec i s = .next t →
    (t.err = .overflow ↔ ((i = .div ∨ i = .mod) ∧ s.lb = 0) ∨
      (i = .ddiv ∧ ∃ x y, dec s.la = some x ∧ dec s.lb = some y ∧ y.mant = 0)) ∧
    (t.err = .badOpnd ↔ isDecimal i = true ∧ (dec s.la = none ∨ (readsB i = true ∧ dec s.lb = none))) ∧
    t.err ≠ .illegal

/-! ## Every command -/

/-- R20 to R23 and R150, the frame of every command: it always ends in a next state, with R, ERR and BUSY written and nothing else: A, B, the
latches, the reset input, the inputs and the answers stay; R changes only when ERR is NONE. That every command ends is the spec's inference
(R150, "[derived: from … R72, R73, …]"); that SCL10 with a k above 38, which no word gives, ends too is the model's choice (log 17). -/
def Obligations.EveryCommandEndsAndKeepsTheRest : Prop :=
  ∀ (i : Instr) (s : State), ∃ t, exec i s = .next t ∧ t = { s with r := t.r, err := t.err, busy := false } ∧
    (t.err ≠ .none → t.r = s.r)

/-- R12: a command's outputs depend only on the command word and the latches, on no earlier result and no other register; R22: a command
with one operand ignores B. -/
def Obligations.OutputsDependOnWordAndLatchesOnly : Prop :=
  (∀ s s' t t' : State, s.lcmd = s'.lcmd → s.la = s'.la → s.lb = s'.lb → s.perform = .next t → s'.perform = .next t' →
    t.err = t'.err ∧ (t.err = .none → t.r = t'.r)) ∧
  (∀ (i : Instr) (s s' t t' : State), readsB i = false → s.la = s'.la → exec i s = .next t → exec i s' = .next t' →
    t.err = t'.err ∧ (t.err = .none → t.r = t'.r))

/-! ## The step -/

/-- The step runs the decoded command: outside reset, with a command in flight that decodes to i and the core to move, the step is exec of i.
When the core's move is the next input that input is taken off; that the core moves when no input is left is the model's choice for R149's
fairness (DESIGN CHOICE, log 3). And a word placed by withFetchWord is run by the very next step, on the operands A and B hold: how
withFetchWord stands for a host's CMD write is the model's choice (DESIGN CHOICE, log 5). -/
def Obligations.StepRunsTheDecodedCommand : Prop :=
  (∀ (s : State) (i : Instr), s.inReset = false → s.busy = true → decode s.lcmd = .ok i →
    (∀ rest, s.inputs = .complete :: rest → step s = exec i { s with inputs := rest }) ∧
    (s.inputs = [] → step s = exec i s)) ∧
  (∀ (s : State) (w : Word) (i : Instr), decode w = .ok i →
    step (s.withFetchWord 32 w.toNat) =
      exec i { s with la := s.a, lb := s.b, lcmd := w, busy := true, inReset := false })

/-- R27: a CMD write while BUSY = 0 latches A, B and the word and sets BUSY, in one step; the completion step performs the latched command,
writing R, ERR and BUSY in that one step; host writes to A and B leave the latches as they are; a read of CMD returns 0; a CMD write while
BUSY = 1 is the hazard. -/
def Obligations.IssueLatchesAndCompletionPerforms : Prop :=
  (∀ (s : State) (w : Word) (rest : List Input), s.inReset = false → s.inputs = macroIssue w :: rest →
    (s.busy = false → step s = .next { s with la := s.a, lb := s.b, lcmd := w, busy := true, inputs := rest }) ∧
    (s.busy = true → step s = .fault .hazard)) ∧
  (∀ (s : State) (rest : List Input), s.inReset = false → s.busy = true → s.inputs = .complete :: rest →
    ∃ t, step s = .next t ∧ s.perform = .next { t with inputs := s.inputs } ∧ t.inputs = rest ∧
      t = { s with inputs := rest, r := t.r, err := t.err, busy := false }) ∧
  (∀ (s : State) (off : Nat) (v : Word) (rest : List Input), s.inReset = false → off < 0x20 → off % 4 = 0 →
    s.inputs = memWrite off v :: rest → ∃ x y, step s = .next { s with a := x, b := y, inputs := rest }) ∧
  (∀ (s : State) (rest : List Input), s.inReset = false → s.inputs = memRead 0x30 :: rest →
    step s = .next { s with inputs := rest, readLog := 0 :: s.readLog })

/-- R145: a CMD write while BUSY = 1 is the HAZARD fault, whatever the word. -/
def Obligations.CmdWriteWhileBusyIsAHazard : Prop :=
  ∀ (s : State) (w : Word) (rest : List Input), s.inReset = false → s.busy = true → s.inputs = macroIssue w :: rest →
    step s = .fault .hazard

/-- R43: inside the window, outside reset, an access that is not 32 bits wide or not at a multiple of 4 is a bus error, read or write. -/
def Obligations.OtherWidthsAndMisalignedAreBusErrors : Prop :=
  ∀ (s : State) (off : Nat) (width : Width) (data : BitVec 64) (rest : List Input), off < 64 → s.inReset = false →
    (width ≠ .w32 ∨ off % 4 ≠ 0) →
    (s.inputs = .read (Config.coreBase + off) width :: rest → step s = .fault .busError) ∧
    (s.inputs = .write (Config.coreBase + off) width data :: rest → step s = .fault .busError)

/-- R41 and R44, the register map: what a read of each offset answers, and that a write of R, STATUS or a reserved offset changes nothing. -/
def Obligations.RegisterMapReadsAndIgnoredWrites : Prop :=
  (∀ (s : State) (off : Nat) (w : Word) (rest : List Input), s.inReset = false → s.inputs = memRead off :: rest →
    (∀ i : Fin 4, (off = 4 * i.val ∧ w = s.a.extractLsb' (32 * i.val) 32) ∨
      (off = 0x10 + 4 * i.val ∧ w = s.b.extractLsb' (32 * i.val) 32) ∨
      (off = 0x20 + 4 * i.val ∧ w = s.r.extractLsb' (32 * i.val) 32) →
      step s = .next { s with inputs := rest, readLog := w :: s.readLog }) ∧
    (off = 0x34 → step s = .next { s with inputs := rest, readLog := statusWord s.busy s.err :: s.readLog }) ∧
    (off = 0x30 ∨ off = 0x38 ∨ off = 0x3C → step s = .next { s with inputs := rest, readLog := 0 :: s.readLog })) ∧
  (∀ (s : State) (off : Nat) (v : Word) (rest : List Input), s.inReset = false → s.inputs = memWrite off v :: rest →
    off ∈ [0x20, 0x24, 0x28, 0x2C, 0x34, 0x38, 0x3C] → step s = .next { s with inputs := rest })

/-- R45: a write at 0x00 … 0x1C replaces that word of A or B and nothing else, once or twice alike; a read changes nothing but what the host
has been answered, and the same read again answers the same word. -/
def Obligations.OperandWritesReplaceOneWord : Prop :=
  (∀ (s : State) (i : Fin 4) (v : Word) (rest : List Input), s.inReset = false → s.inputs = memWrite (4 * i.val) v :: rest →
    ∃ x, step s = .next { s with a := x, inputs := rest } ∧
      ∀ j : Fin 4, x.extractLsb' (32 * j.val) 32 = if j = i then v else s.a.extractLsb' (32 * j.val) 32) ∧
  (∀ (s : State) (i : Fin 4) (v : Word) (rest : List Input), s.inReset = false →
    s.inputs = memWrite (0x10 + 4 * i.val) v :: rest →
    ∃ x, step s = .next { s with b := x, inputs := rest } ∧
      ∀ j : Fin 4, x.extractLsb' (32 * j.val) 32 = if j = i then v else s.b.extractLsb' (32 * j.val) 32) ∧
  (∀ (s t : State) (off : Nat) (v : Word) (rest : List Input), s.inReset = false → off < 0x20 → off % 4 = 0 →
    s.inputs = memWrite off v :: memWrite off v :: rest → step s = .next t → step t = .next { t with inputs := rest }) ∧
  (∀ (s : State) (off : Nat) (rest : List Input), s.inReset = false → off < 0x40 → off % 4 = 0 →
    s.inputs = memRead off :: memRead off :: rest →
    ∃ w, Host.Core.run core 2 s = .next { s with inputs := rest, readLog := w :: w :: s.readLog })

/-- R42: word order and byte order. Byte n of A, B and R, least significant first, stands at offset n of its 16 bytes of the window; and inside
a 32-bit register the byte at `off + i` is bits `[8i+7 : 8i]`. -/
def Obligations.WindowIsLittleEndian : Prop :=
  ∀ s : State,
    (∀ n : Nat, n < 16 → s.windowByte n = s.a.extractLsb' (8 * n) 8 ∧ s.windowByte (0x10 + n) = s.b.extractLsb' (8 * n) 8 ∧
      s.windowByte (0x20 + n) = s.r.extractLsb' (8 * n) 8) ∧
    (∀ off i : Nat, off < 64 → off % 4 = 0 → i < 4 →
      s.windowByte (off + i) = (s.readReg (windowReg off)).extractLsb' (8 * i) 8)

/-- R28, STATUS: BUSY in bit 0, ERR's code (0 to 4) in bits 6:4, every other bit 0; so the word a host reads is one of ten. -/
def Obligations.StatusWordLayout : Prop :=
  (∀ (busy : Bool) (err : ErrCode),
    statusBusy (statusWord busy err) = busy ∧ statusErr (statusWord busy err) = err.code ∧ err.code.toNat ≤ 4 ∧
    (statusWord busy err).extractLsb' 1 3 = 0 ∧ (statusWord busy err).extractLsb' 7 25 = 0) ∧
  (ErrCode.none.code = 0 ∧ ErrCode.overflow.code = 1 ∧ ErrCode.domain.code = 2 ∧ ErrCode.illegal.code = 3 ∧
    ErrCode.badOpnd.code = 4) ∧
  statusWord false .none = 0x00 ∧ statusWord true .none = 0x01 ∧ statusWord false .badOpnd = 0x40

/-- A step faults exactly when its input is an access the host must not make: outside the window; or, outside reset, one that is not accepted
(R43) or a CMD write while BUSY = 1 (R145). In reset every access inside the window is ignored and answers a next state, whatever its width,
its alignment and its offset (R140; the order of these checks is the model's inference, log 12). A step never refuses, and in every other
case it answers a next state. That an access outside the window faults is the model's choice (log 11). -/
def Obligations.StepFaultsOnlyOnForbiddenAccesses : Prop :=
  ∀ s : State,
    (s.inputs = [] → ∃ t, step s = .next t) ∧
    (∀ e rest, s.inputs = e :: rest →
      (s.allows e = true → ∃ t, step s = .next t) ∧ (s.allows e = false → ∃ f, step s = .fault f))

/-! ## Reset -/

/-- R33: the state after reset. -/
def Obligations.ResetValues : Prop :=
  State.reset.a = 0 ∧ State.reset.b = 0 ∧ State.reset.r = 0 ∧ State.reset.la = 0 ∧ State.reset.lb = 0 ∧ State.reset.lcmd = 0 ∧
  State.reset.busy = false ∧ State.reset.err = .none ∧ statusWord State.reset.busy State.reset.err = 0 ∧
  (∀ k : Nat, k ≤ 38 → p10 k = BitVec.ofNat 128 (10 ^ k))

/-- R140: while reset is asserted and when it is released every register is at its value of R33; a command in flight never completes: until
the release no move of the core, and no access of the host inside the window, changes a register or sets BUSY. That an access of a width or
an alignment that R43 answers with a bus error outside reset is ignored in reset too, so that reset is looked at before width and alignment, is
the model's inference from R140's "the core ignores them" (DEDUCED, log 12). -/
def Obligations.ResetClearsAndAbandons : Prop :=
  (∀ (s : State) (rest : List Input), s.inputs = .assertReset :: rest →
    ∃ t, step s = .next t ∧ t.AtReset ∧ t.inReset = true ∧ t.inputs = rest) ∧
  (∀ (s : State) (rest : List Input), s.inReset = true → s.inputs = .releaseReset :: rest →
    ∃ t, step s = .next t ∧ t.AtReset ∧ t.inReset = false ∧ t.inputs = rest) ∧
  (∀ (s : State) (rest : List Input), s.inReset = true → s.inputs = .complete :: rest → step s = .next { s with inputs := rest }) ∧
  (∀ s : State, s.inReset = true → s.inputs = [] → step s = .next s) ∧
  (∀ (s : State) (off : Nat) (width : Width) (data : BitVec 64) (rest : List Input), s.inReset = true → off < 64 →
    s.inputs = .write (Config.coreBase + off) width data :: rest → step s = .next { s with inputs := rest }) ∧
  (∀ (s : State) (off : Nat) (width : Width) (rest : List Input), s.inReset = true → off < 64 →
    s.inputs = .read (Config.coreBase + off) width :: rest →
    ∃ t, step s = .next t ∧ t = { s with inputs := rest, readLog := t.readLog, freeCount := t.freeCount })

/-! ## Invariants and whole-machine rules -/

/-- The invariant holds after reset. -/
def Obligations.InvariantHoldsAtReset : Prop := State.reset.Inv

/-- The invariant is kept by every step from every state that has it: while reset is asserted every register is at its reset value (R140), and
whenever BUSY = 0 the results in R and ERR are those of the latched command, or none was issued since reset (R28, R49). -/
def Obligations.EveryStepKeepsTheInvariant : Prop := ∀ s t : State, s.Inv → step s = .next t → t.Inv

/-- R49: a STATUS read that returns BUSY = 0 says that the last command's completion has happened: R and ERR are its results. -/
def Obligations.BusyZeroMeansResultsAreCurrent : Prop :=
  ∀ (s t : State) (rest : List Input), s.Inv → s.inReset = false → s.inputs = memRead 0x34 :: rest → step s = .next t →
    ∃ w, t.readLog = w :: s.readLog ∧ w.extractLsb' 4 3 = t.err.code ∧
      (w.getLsbD 0 = false → t.NothingIssued ∨ t.ResultsCurrent)

/-- R146, R144 and R149: however many accepted reads, and writes to any offset but CMD's, come between issue and completion, the command
completes with the R and ERR it would have had at once; no latency and no early operand write changes a result. -/
def Obligations.LatencyDoesNotChangeTheResult : Prop :=
  ∀ (s : State) (es : List Input), s.inReset = false → s.busy = true → (∀ e ∈ es, e.harmless = true) →
    ∃ t u, Host.Core.run core (es.length + 1) { s with inputs := es ++ [.complete] } = .next t ∧
      step { s with inputs := [.complete] } = .next u ∧ t.r = u.r ∧ t.err = u.err ∧ t.busy = false ∧ u.busy = false

/-- R21 to R23, R27, R28 and R134: A and B change only by a host write of their own words or by reset; R only by the completion of a command
that ends with NONE or by reset, and never from IDLE; the latches only by a CMD write while BUSY = 0 or by reset; BUSY is set by such a write
and cleared by a completion or by reset; ERR changes only by a completion or by reset. A step that changes one of them has such an input, or
no input is left and the command in flight completes (log 3). -/
def Obligations.RegistersChangeOnlyByTheirAgents : Prop :=
  ∀ s t : State, step s = .next t →
    (t.a ≠ s.a → s.OperandMove 0x00 ∨ s.ResetMove) ∧
    (t.b ≠ s.b → s.OperandMove 0x10 ∨ s.ResetMove) ∧
    (t.r ≠ s.r → (s.CompletionMove ∧ t.busy = false ∧ t.err = .none) ∨ s.ResetMove) ∧
    (t.la ≠ s.la ∨ t.lb ≠ s.lb ∨ t.lcmd ≠ s.lcmd → (s.IssueMove ∧ t.busy = true) ∨ s.ResetMove) ∧
    (t.busy ≠ s.busy → (s.IssueMove ∧ t.busy = true) ∨ (s.CompletionMove ∧ t.busy = false) ∨ (s.ResetMove ∧ t.busy = false)) ∧
    (t.err ≠ s.err → (s.CompletionMove ∧ t.busy = false) ∨ s.ResetMove)

/-- R46 and R144: RDR's four reads, with the completion after the first k of them: the words read before it are the old result's, the others the
completed result's, so RDR gives the old result when all four come before (k = 4) and the new one when all come after (k = 0). And k = 2 can
mix two results: old upper words and new lower words, a value that neither result is. Which words are old for a given k follows from RDR's
order in time, most significant word first, which R64 does not give and the model chose (DESIGN CHOICE, log 28). -/
def Obligations.FourReadsCanMixTwoResults : Prop :=
  (∀ (s : State) (k : Nat), s.inReset = false → s.busy = true → k ≤ 4 →
    ∃ u v w, step { s with inputs := [.complete] } = .next u ∧
      Host.Core.run core 5 { s with inputs := macroRdr.take k ++ .complete :: macroRdr.drop k } = .next v ∧ v.r = u.r ∧
      rdrValue v.readLog = some w ∧
      ∀ j : Fin 4, w.extractLsb' (32 * j.val) 32 =
        if 4 ≤ k + j.val then s.r.extractLsb' (32 * j.val) 32 else u.r.extractLsb' (32 * j.val) 32) ∧
  (∃ s : State, s.inReset = false ∧ s.busy = true ∧
    (∃ t u v old new mixed,
      Host.Core.run core 4 { s with inputs := macroRdr ++ [.complete] } = .next t ∧ rdrValue t.readLog = some old ∧ old = s.r ∧
      Host.Core.run core 5 { s with inputs := .complete :: macroRdr } = .next u ∧ rdrValue u.readLog = some new ∧ new = u.r ∧
      Host.Core.run core 5 { s with inputs := macroRdr.take 2 ++ .complete :: macroRdr.drop 2 } = .next v ∧
      rdrValue v.readLog = some mixed ∧
      mixed.extractLsb' 64 64 = old.extractLsb' 64 64 ∧ mixed.extractLsb' 0 64 = new.extractLsb' 0 64 ∧
      mixed ≠ old ∧ mixed ≠ new))

/-! ## Datapaths -/

/-- R72: the three tiers of the divider give DIV's result, whichever is taken; and the long division of tier (c), and the chunked one of tier
(b), give the quotient of any magnitudes they may be given. The reading of the tiers' bounds is the model's (log 23). -/
def Obligations.DividerTiersGiveTheQuotient : Prop :=
  (∀ a b : Quad, b ≠ 0 → Completes .div a b (dividerQuotient a b)) ∧
  (∀ n d : Nat, n < 2 ^ 128 → 0 < d → longDivide n d = n / d) ∧
  (∀ n d : Nat, n < 2 ^ 128 → 0 < d → d < 2 ^ 64 → chunkDivide n d = n / d) ∧
  (∀ a b : Quad, b ≠ 0 → Completes .div a b (applySign (signBit a ^^ signBit b) (longDivide (magnitude a) (magnitude b))))

/-- R69 and C7: the ten partial products of 32-bit halves whose weights sum below 2^128 give MUL's result. -/
def Obligations.TenPartialProductsGiveTheProduct : Prop := ∀ a b : Quad, Completes .mul a b (mulByHalves a b)

/-- R2 and R93 (the spec's inference, "[derived: from rules R92, R98, R99]"): six 32-bit words hold every intermediate of the decimal
units: the aligned magnitudes and their sum, the product, the scaled dividend and the multiple that the scale-up last tries, and DDIV's quotient
brought back from a negative precision to scale 0 (R100), by a power of the scaler's table; what rounding, narrowing, shrinking and normalizing
do to a magnitude never makes it larger. And adding or subtracting magnitudes word by word, the carry or borrow going up, gives the exact sum
or difference. Of products and quotients the statement gives the size only. -/
def Obligations.SixWordsHoldEveryIntermediate : Prop :=
  (∀ x y : Dec, x.mant < 2 ^ 96 → y.mant < 2 ^ 96 → x.scale ≤ 28 → y.scale ≤ 28 →
    (align x y).1 < 2 ^ 190 ∧ (align x y).2.1 < 2 ^ 190 ∧ (align x y).1 + (align x y).2.1 < 2 ^ 191 ∧
    (preReduce x y).1.mant * (preReduce x y).2.mant < 2 ^ 192 ∧ (scaleUp Config.divExtraPrecision x y).1 ≤ 2 ^ 127 - 1 ∧
    x.mant * 10 ^ (scaleUpExponent Config.divExtraPrecision x y + 1) < 2 ^ 192 ∧
    ∀ (n : Nat) (t : Int), scaleUp Config.divExtraPrecision x y = (n, t) → t < 0 →
      (-t).toNat ≤ 38 ∧ n / y.mant * 10 ^ (-t).toNat < 2 ^ 192) ∧
  (∀ m n : Nat, rhu m n ≤ m ∧ (n ≤ 28 → 2 * (m % 10 ^ n) < 2 ^ 192) ∧ (fit n m).1 ≤ m ∧ capTrunc m ≤ m ∧
    (shrinkQuotient n m).1 ≤ m) ∧
  (∀ d : Dec, (decNormalize d).mant ≤ d.mant) ∧
  (∀ m : Nat, m < 2 ^ 192 → wordsMagnitude (magnitudeWords 6 m) = m) ∧
  (∀ m n : Nat, m < 2 ^ 192 → n < 2 ^ 192 →
    (m + n < 2 ^ 192 → wordsMagnitude (addWords (magnitudeWords 6 m) (magnitudeWords 6 n) false) = m + n) ∧
    (n ≤ m → wordsMagnitude (subWords (magnitudeWords 6 m) (magnitudeWords 6 n) false) = m - n))

/-- R113: the rounding state machine, stage by stage from DECODE, is at WRITE after at most six transitions, with the result that DRND
completes or raises with. (A `places` outside −128 … 127, which no word gives: log 17.) -/
def Obligations.RoundingStagesGiveDrnd : Prop :=
  ∀ (places : Int) (mode : RoundingMode) (a b : Quad),
    (∃ v, RoundStage.run places mode 6 (.decode a) = .write (.complete v) ∧ Completes (.drnd places mode) a b v) ∨
    (RoundStage.run places mode 6 (.decode a) = .write (.raise .badOpnd) ∧ Raises (.drnd places mode) a b .badOpnd)
end

