-- ==== Sys2Proof/Laws/Operands.lean ====
section
/-! SUPPORT. One lemma per operand helper: views and patterns of a 128-bit register, DEC and ENC, the power-of-ten table. -/

namespace Sys2Proof.Machine

/-! ## Integer views (R10) -/

theorem s128_eq_toInt (x : Quad) : s128 x = x.toInt := by
  have h : x.getLsbD 127 = decide (2 ^ 127 ≤ x.toNat) := by
    have := BitVec.msb_eq_decide x
    simpa [BitVec.msb_eq_getLsbD_last] using this
  have hx := x.isLt
  simp only [s128, h, BitVec.toInt_eq_toNat_cond]
  split <;> split <;> simp_all <;> omega

theorem u128_eq_ofInt (v : Int) : u128 v = BitVec.ofInt 128 v := by
  apply BitVec.eq_of_toNat_eq
  simp only [u128, BitVec.toNat_ofNat, BitVec.toNat_ofInt]
  omega

@[simp] theorem u128_natCast (n : Nat) : u128 (n : Int) = BitVec.ofNat 128 n := by
  rw [u128_eq_ofInt]; exact BitVec.ofInt_natCast 128 n

@[simp] theorem u128_s128 (x : Quad) : u128 (s128 x) = x := by
  rw [u128_eq_ofInt, s128_eq_toInt]; exact BitVec.ofInt_toInt

theorem s128_u128 {v : Int} (h : -2 ^ 127 ≤ v) (h' : v < 2 ^ 127) : s128 (u128 v) = v := by
  rw [u128_eq_ofInt, s128_eq_toInt, BitVec.toInt_ofInt, Int.bmod_def]
  split <;> omega

theorem s128_bounds (x : Quad) : -2 ^ 127 ≤ s128 x ∧ s128 x < 2 ^ 127 := by
  rw [s128_eq_toInt]
  have h1 := BitVec.le_toInt x
  have h2 := BitVec.toInt_lt (x := x)
  simp only [Nat.add_one_sub_one] at h1 h2
  omega

@[simp] theorem s128_eq_zero {x : Quad} : s128 x = 0 ↔ x = 0 := by
  rw [s128_eq_toInt]
  constructor
  · intro h; exact BitVec.eq_of_toInt_eq (by simpa using h)
  · rintro rfl; rfl

theorem tdiv_eq (a b : Int) : tdiv a b = Int.tdiv a b := by
  rcases lt_trichotomy a 0 with ha | rfl | ha <;> rcases lt_trichotomy b 0 with hb | rfl | hb <;>
    simp only [tdiv, Int.sign_eq_neg_one_of_neg, Int.sign_eq_one_of_pos, Int.sign_zero, *]
  all_goals try simp
  · obtain ⟨m, rfl⟩ : ∃ m : Nat, a = -(m : Int) := ⟨a.natAbs, by omega⟩
    obtain ⟨n, rfl⟩ : ∃ n : Nat, b = -(n : Int) := ⟨b.natAbs, by omega⟩
    simp [Int.neg_tdiv, Int.tdiv_neg]
  · obtain ⟨m, rfl⟩ : ∃ m : Nat, a = -(m : Int) := ⟨a.natAbs, by omega⟩
    obtain ⟨n, rfl⟩ : ∃ n : Nat, b = (n : Int) := ⟨b.natAbs, by omega⟩
    simp [Int.neg_tdiv]
  · obtain ⟨m, rfl⟩ : ∃ m : Nat, a = (m : Int) := ⟨a.natAbs, by omega⟩
    obtain ⟨n, rfl⟩ : ∃ n : Nat, b = -(n : Int) := ⟨b.natAbs, by omega⟩
    simp [Int.tdiv_neg]
  · obtain ⟨m, rfl⟩ : ∃ m : Nat, a = (m : Int) := ⟨a.natAbs, by omega⟩
    obtain ⟨n, rfl⟩ : ∃ n : Nat, b = (n : Int) := ⟨b.natAbs, by omega⟩
    simp

/-! ## Words of a register (R9), as numbers -/

theorem toNat_append_eq {n m : Nat} (x : BitVec n) (y : BitVec m) : (x ++ y).toNat = x.toNat * 2 ^ m + y.toNat := by
  rw [BitVec.toNat_append, ← Nat.shiftLeft_add_eq_or_of_lt y.isLt, Nat.shiftLeft_eq]

theorem toNat_extractLsb'_eq {n : Nat} (s len : Nat) (x : BitVec n) : (x.extractLsb' s len).toNat = x.toNat / 2 ^ s % 2 ^ len := by
  rw [BitVec.extractLsb'_toNat, Nat.shiftRight_eq_div_pow]

theorem toNat_quadWord (x : Quad) (i : Fin 4) : (quadWord x i).toNat = x.toNat / 2 ^ (32 * i.val) % 2 ^ 32 :=
  toNat_extractLsb'_eq ..

theorem toNat_ofWords (w3 w2 w1 w0 : Word) :
    (Quad.ofWords w3 w2 w1 w0).toNat = w3.toNat * 2 ^ 96 + w2.toNat * 2 ^ 64 + w1.toNat * 2 ^ 32 + w0.toNat := by
  simp only [Quad.ofWords, toNat_append_eq]; ring

theorem quad_eq_words (x : Quad) : x = Quad.ofWords (quadWord x 3) (quadWord x 2) (quadWord x 1) (quadWord x 0) := by
  apply BitVec.eq_of_toNat_eq
  rw [toNat_ofWords]
  simp only [toNat_quadWord]
  have := x.isLt
  norm_num
  omega

theorem toNat_quadLo (x : Quad) : (quadLo x).toNat = x.toNat % 2 ^ 64 := by
  simp [quadLo]
theorem toNat_quadHi (x : Quad) : (quadHi x).toNat = x.toNat / 2 ^ 64 := by
  have := x.isLt
  simp only [quadHi, toNat_extractLsb'_eq]; omega

theorem quad_eq_dwords (x : Quad) : x = quadHi x ++ quadLo x := by
  apply BitVec.eq_of_toNat_eq
  have := x.isLt
  rw [toNat_append_eq, toNat_quadHi, toNat_quadLo]; omega

theorem quadWord_ofWords (w3 w2 w1 w0 : Word) (j : Fin 4) :
    quadWord (Quad.ofWords w3 w2 w1 w0) j = if j = 0 then w0 else if j = 1 then w1 else if j = 2 then w2 else w3 := by
  apply BitVec.eq_of_toNat_eq
  rw [toNat_quadWord, toNat_ofWords]
  have := w0.isLt; have := w1.isLt; have := w2.isLt; have := w3.isLt
  fin_cases j <;> simp <;> omega

/-- Reading a word after writing one. -/
theorem quadWord_setQuadWord (x : Quad) (i j : Fin 4) (v : Word) :
    quadWord (setQuadWord x i v) j = if j = i then v else quadWord x j := by
  fin_cases i <;> fin_cases j <;> simp [setQuadWord, quadWord_ofWords]

/-! ## The power-of-ten table (R31) -/

@[simp] theorem p10Rom_length : p10Rom.length = 39 := by simp [p10Rom, Config.lastPower]

theorem p10_eq {k : Nat} (h : k ≤ 38) : p10 k = BitVec.ofNat 128 (10 ^ k) := by
  simp [p10, p10Rom, Config.lastPower, List.getD_eq_getElem?_getD, Nat.lt_succ_of_le h]

theorem p10_toNat {k : Nat} (h : k ≤ 38) : (p10 k).toNat = 10 ^ k := by
  rw [p10_eq h, BitVec.toNat_ofNat]
  apply Nat.mod_eq_of_lt
  calc 10 ^ k ≤ 10 ^ 38 := Nat.pow_le_pow_right (by norm_num) h
    _ < 2 ^ 128 := by norm_num

/-! ## DEC and ENC (R85, R86) -/

theorem bool_toNat_getLsbD (x : Quad) : (x.getLsbD 127).toNat = x.toNat / 2 ^ 127 := by
  have := x.isLt
  simp only [BitVec.getLsbD, Nat.testBit_eq_decide_div_mod_eq]
  rcases Nat.mod_two_eq_zero_or_one (x.toNat / 2 ^ 127) with h | h <;> rw [h] <;> simp <;> omega

theorem toNat_enc (d : Dec) (hm : d.mant < 2 ^ 96) (hs : d.scale ≤ 28) :
    (enc d).toNat = d.neg.toNat * 2 ^ 127 + d.scale * 2 ^ 112 + d.mant := by
  simp only [enc, toNat_append_eq, BitVec.toNat_ofNat, BitVec.toNat_ofBool]
  rw [Nat.mod_eq_of_lt hm, Nat.mod_eq_of_lt (show d.scale < 2 ^ 8 by omega)]
  cases d.neg <;> simp <;> ring

theorem dec_eq_some {x : Quad} {d : Dec} :
    dec x = some d ↔ (scaleField x).toNat ≤ 28 ∧ reservedZero x = true ∧
      d = ⟨signBit x, (mantissaField x).toNat, (scaleField x).toNat⟩ := by
  unfold dec Config.maxScale
  split
  · rename_i h
    simp only [reduceCtorEq, false_iff]
    rintro ⟨h1, h2, -⟩
    simp [h2] at h; omega
  · rename_i h
    simp only [gt_iff_lt, Bool.or_eq_true, decide_eq_true_eq, not_or, not_lt, Bool.not_eq_true', Bool.not_eq_false] at h
    simp [h.1, h.2, eq_comm]

theorem reservedZero_iff (x : Quad) : reservedZero x = true ↔ x.toNat / 2 ^ 96 % 2 ^ 16 = 0 ∧ x.toNat / 2 ^ 120 % 2 ^ 7 = 0 := by
  simp only [reservedZero, Bool.and_eq_true, beq_iff_eq, ← BitVec.toNat_inj, toNat_extractLsb'_eq]; rfl

/-- The fields of a legal image, as numbers. -/
theorem dec_eq_some_iff {x : Quad} {d : Dec} : 
    dec x = some d ↔ d.mant < 2 ^ 96 ∧ d.scale ≤ 28 ∧ x.toNat = d.neg.toNat * 2 ^ 127 + d.scale * 2 ^ 112 + d.mant := by
  have hx := x.isLt
  have hb := bool_toNat_getLsbD x
  rw [dec_eq_some, reservedZero_iff]
  obtain ⟨g, m, s⟩ := d
  simp only [Dec.mk.injEq, scaleField, mantissaField, signBit, toNat_extractLsb'_eq]
  constructor
  · rintro ⟨h1, ⟨h2, h3⟩, rfl, rfl, rfl⟩
    rw [hb]
    refine ⟨?_, ?_, ?_⟩ <;> omega
  · rintro ⟨h1, h2, h3⟩
    have hg : x.getLsbD 127 = g := by
      cases g <;> cases h : x.getLsbD 127 <;> simp_all <;> omega
    have : g.toNat ≤ 1 := Bool.toNat_le g
    refine ⟨?_, ⟨?_, ?_⟩, hg.symm, ?_, ?_⟩ <;> omega

/-- DEC undoes ENC on what a register can hold. -/
theorem dec_enc {d : Dec} (hm : d.mant < 2 ^ 96) (hs : d.scale ≤ 28) : dec (enc d) = some d :=
  dec_eq_some_iff.2 ⟨hm, hs, toNat_enc d hm hs⟩

/-- ENC undoes DEC. -/
theorem enc_dec {x : Quad} {d : Dec} (h : dec x = some d) : enc d = x := by
  obtain ⟨hm, hs, hx⟩ := dec_eq_some_iff.1 h
  exact BitVec.eq_of_toNat_eq (by rw [toNat_enc d hm hs, hx])

theorem dec_scale_le {x : Quad} {d : Dec} (h : dec x = some d) : d.scale ≤ 28 := (dec_eq_some_iff.1 h).2.1

theorem dec_mant_lt {x : Quad} {d : Dec} (h : dec x = some d) : d.mant < 2 ^ 96 := (dec_eq_some_iff.1 h).1

end Sys2Proof.Machine
end

