-- ==== Sys2Proof/Laws/Decimal.lean ====
section
/-! SUPPORT. The decimal helpers, each said once: what they keep of the value, what they bound, and their shape (R87 to R99). -/

namespace Sys2Proof.Machine

/-! ## NORMALIZE (R87) -/

theorem stripZeros_scale_le (s m : Nat) : (stripZeros s m).2 ≤ s := by
  induction s generalizing m with
  | zero => simp [stripZeros]
  | succ s ih =>
    simp only [stripZeros]
    split
    · exact Nat.le_succ_of_le (ih _)
    · simp

/-- The loop divides by exactly the powers of ten it takes off the scale. -/
theorem stripZeros_mul (s m : Nat) : (stripZeros s m).1 * 10 ^ (s - (stripZeros s m).2) = m := by
  induction s generalizing m with
  | zero => simp [stripZeros]
  | succ s ih =>
    simp only [stripZeros]
    split
    · rename_i h
      have := stripZeros_scale_le s (m / 10)
      rw [Nat.succ_sub this, pow_succ, ← mul_assoc, ih]; omega
    · simp

/-- The loop stops at scale 0 or at a last digit that is not zero. -/
theorem stripZeros_stop (s m : Nat) : (stripZeros s m).2 ≠ 0 → (stripZeros s m).1 % 10 ≠ 0 := by
  induction s generalizing m with
  | zero => simp [stripZeros]
  | succ s ih =>
    simp only [stripZeros]
    split
    · exact ih _
    · simp_all

theorem stripZeros_mant_le (s m : Nat) : (stripZeros s m).1 ≤ m := by
  conv_rhs => rw [← stripZeros_mul s m]
  exact Nat.le_mul_of_pos_right _ (by positivity)

theorem stripZeros_mant_pos {s m : Nat} (h : m ≠ 0) : (stripZeros s m).1 ≠ 0 := by
  intro h0
  have := stripZeros_mul s m
  rw [h0] at this; omega

theorem decNormalize_canonical (d : Dec) : (decNormalize d).Canonical := by
  unfold decNormalize Dec.Canonical
  split
  · simp
  · rename_i h
    exact ⟨fun h0 => absurd h0 (stripZeros_mant_pos h), stripZeros_stop _ _⟩

theorem decNormalize_mant_le (d : Dec) : (decNormalize d).mant ≤ d.mant := by
  unfold decNormalize; split
  · simp
  · exact stripZeros_mant_le _ _

theorem decNormalize_scale_le (d : Dec) : (decNormalize d).scale ≤ d.scale := by
  unfold decNormalize; split
  · simp
  · exact stripZeros_scale_le _ _

/-- "NORMALIZE never changes the value." -/
@[simp] theorem decNormalize_value (d : Dec) : (decNormalize d).value = d.value := by
  unfold decNormalize
  split
  · rename_i h; simp [Dec.value, h]
  · have h1 := stripZeros_mul d.scale d.mant
    have h2 := stripZeros_scale_le d.scale d.mant
    generalize stripZeros d.scale d.mant = p at *
    have : (d.mant : ℚ) / 10 ^ d.scale = (p.1 : ℚ) / 10 ^ p.2 := by
      rw [← h1, div_eq_div_iff (by positivity) (by positivity)]
      push_cast
      rw [mul_assoc, ← pow_add]; congr 2; omega
    simp only [Dec.value, mul_div_assoc, this]

/-- A canonical decimal is its own normal form. -/
theorem decNormalize_of_canonical {d : Dec} (h : d.Canonical) : decNormalize d = d := by
  obtain ⟨g, m, s⟩ := d
  unfold decNormalize
  simp only [Dec.Canonical] at h
  split
  · rename_i h0; simp_all
  · cases s with
    | zero => simp [stripZeros]
    | succ s => simp [stripZeros, h.2 (by simp)]

/-! ## Rounding division and CAPTRUNC (R89, R91) -/

@[simp] theorem rhu_zero (m : Nat) : rhu m 0 = m := rfl

/-- `RHU(m, n)` is the nearest integer to `m / 10^n`, ties up. -/
theorem rhu_spec (m n : Nat) : 2 * m < (2 * rhu m n + 1) * 10 ^ n ∧ 2 * rhu m n * 10 ^ n ≤ 2 * m + 10 ^ n := by
  unfold rhu
  split
  · rename_i h; subst h; constructor <;> simp
  · have h1 := Nat.div_add_mod m (10 ^ n)
    have h2 := Nat.mod_lt m (show 0 < 10 ^ n by positivity)
    generalize m / 10 ^ n = q at *
    generalize m % 10 ^ n = r at *
    generalize 10 ^ n = t at *
    subst h1
    split <;> constructor <;> nlinarith

theorem rhu_le (m n : Nat) : rhu m n ≤ m := by
  rcases Nat.eq_zero_or_pos n with rfl | hn
  · simp
  have h := (rhu_spec m n).2
  have ht : 10 ≤ 10 ^ n := by calc 10 = 10 ^ 1 := by norm_num
    _ ≤ 10 ^ n := Nat.pow_le_pow_right (by norm_num) hn
  by_contra hc
  push Not at hc
  nlinarith

theorem capTrunc_of_lt {m : Nat} (h : m < 2 ^ 96) : capTrunc m = m := by
  exact if_pos h

/-- `m mod 10^kk` fits, for the kk of R91. -/
theorem capDigits_fits (m : Nat) : m % 10 ^ capDigits m < 2 ^ 96 :=
  Nat.findGreatest_spec (P := fun k => m % 10 ^ k < Config.mantissaBound) (m := 0) (Nat.zero_le _)
    (by simp [Config.mantissaBound, Nat.mod_one])

theorem capTrunc_lt (m : Nat) : capTrunc m < 2 ^ 96 := by
  unfold capTrunc
  split
  · assumption
  · exact capDigits_fits m

theorem capTrunc_le (m : Nat) : capTrunc m ≤ m := by
  unfold capTrunc; split
  · exact le_refl _
  · exact Nat.mod_le _ _

/-- A number is below ten to the power of its bit count. -/
theorem lt_ten_pow_log2 (m : Nat) : m < 10 ^ (Nat.log2 m + 1) := by
  calc m < 2 ^ (Nat.log2 m + 1) := Nat.lt_log2_self
    _ ≤ 10 ^ (Nat.log2 m + 1) := Nat.pow_le_pow_left (by norm_num) _

/-- kk is the largest k, with no bound on k, for which `m mod 10^k` fits (R91). -/
theorem capDigits_largest {m k : Nat} (hm : 2 ^ 96 ≤ m) (h : m % 10 ^ k < 2 ^ 96) : k ≤ capDigits m := by
  refine Nat.le_findGreatest (P := fun k => m % 10 ^ k < Config.mantissaBound) ?_ h
  by_contra hc
  push Not at hc
  have : m < 10 ^ k := (lt_ten_pow_log2 m).trans (Nat.pow_lt_pow_right (by norm_num) hc)
  rw [Nat.mod_eq_of_lt this] at h
  omega

/-! ## FIT (R90) -/

theorem fit_of_lt {s m : Nat} (h : m < 2 ^ 96) : fit s m = (m, s) := by
  cases s with
  | zero => simp [fit, capTrunc_of_lt h]
  | succ s =>
    have : ¬Config.mantissaBound ≤ m := by simp [Config.mantissaBound]; omega
    simp [fit, this, capTrunc_of_lt h]

/-- "FIT returns m < 2^96". -/
theorem fit_mant_lt (s m : Nat) : (fit s m).1 < 2 ^ 96 := by
  induction s generalizing m with
  | zero => exact capTrunc_lt m
  | succ s ih =>
    simp only [fit]; split
    · exact ih _
    · exact capTrunc_lt m

/-- Narrowing never makes a magnitude larger. -/
theorem fit_mant_le (s m : Nat) : (fit s m).1 ≤ m := by
  induction s generalizing m with
  | zero => exact capTrunc_le m
  | succ s ih =>
    unfold fit; split
    · exact (ih _).trans (rhu_le _ _)
    · exact capTrunc_le m

/-- "and keeps s within its input range". -/
theorem fit_scale_le (s m : Nat) : (fit s m).2 ≤ s := by
  induction s generalizing m with
  | zero => simp [fit]
  | succ s ih =>
    simp only [fit]; split
    · exact Nat.le_succ_of_le (ih _)
    · simp

theorem fit_zero_mant (s : Nat) : fit s 0 = (0, s) := fit_of_lt (by norm_num)

theorem narrow_mant_lt (g : Bool) (m s : Nat) : (narrow g m s).mant < 2 ^ 96 :=
  (decNormalize_mant_le _).trans_lt (fit_mant_lt s m)

theorem narrow_scale_le (g : Bool) (m s : Nat) : (narrow g m s).scale ≤ s :=
  (decNormalize_scale_le _).trans (fit_scale_le s m)

theorem narrow_canonical (g : Bool) (m s : Nat) : (narrow g m s).Canonical := decNormalize_canonical _

/-- The sign of a zero magnitude does not matter. -/
theorem narrow_zero (g : Bool) (s : Nat) : narrow g 0 s = ⟨false, 0, 0⟩ := by
  simp [narrow, fit_zero_mant, decNormalize]

/-- A magnitude that fits is narrowed without a change of value. -/
theorem narrow_value {g : Bool} {m s : Nat} (h : m < 2 ^ 96) : (narrow g m s).value = Dec.value ⟨g, m, s⟩ := by
  simp [narrow, fit_of_lt h]

/-! ## ALIGN and PREREDUCE (R92, R97) -/

theorem align_eq {x y : Dec} (hx : x.scale ≤ 28) (hy : y.scale ≤ 28) :
    align x y = (x.mant * 10 ^ (max x.scale y.scale - x.scale), y.mant * 10 ^ (max x.scale y.scale - y.scale),
      max x.scale y.scale) := by
  have h1 : max x.scale y.scale - x.scale ≤ 38 := by omega
  have h2 : max x.scale y.scale - y.scale ≤ 38 := by omega
  simp only [align, p10_toNat h1, p10_toNat h2]

/-- The two reductions add up to the excess, and neither exceeds its operand's scale (R97). -/
theorem reduction_spec {sa sb : Nat} (ha : sa ≤ 28) (hb : sb ≤ 28) :
    (reduction sa sb).1 + (reduction sa sb).2 = sa + sb - 28 ∧ (reduction sa sb).1 ≤ sa ∧ (reduction sa sb).2 ≤ sb := by
  unfold reduction Config.maxScale
  split <;> simp only <;> omega

theorem reduction_eq_zero {sa sb : Nat} (h : sa + sb ≤ 28) : reduction sa sb = (0, 0) := by
  have : sa + sb - Config.maxScale = 0 := by simp [Config.maxScale]; omega
  unfold reduction; simp [this]

theorem preReduce_scale_le {x y : Dec} (hx : x.scale ≤ 28) (hy : y.scale ≤ 28) :
    (preReduce x y).1.scale + (preReduce x y).2.scale ≤ 28 := by
  have := reduction_spec hx hy
  simp only [preReduce]; omega

/-! ## Division (R99, R100) -/

theorem scaleUpLoop_ge (ma left j : Nat) : j ≤ scaleUpLoop ma left j := by
  induction left generalizing j with
  | zero => simp [scaleUpLoop]
  | succ n ih =>
    simp only [scaleUpLoop]; split
    · exact (Nat.le_succ j).trans (ih _)
    · exact le_refl _

theorem scaleUpLoop_le (ma left j : Nat) : scaleUpLoop ma left j ≤ j + left := by
  induction left generalizing j with
  | zero => simp [scaleUpLoop]
  | succ n ih =>
    simp only [scaleUpLoop]; split
    · exact (ih _).trans (by omega)
    · omega

/-- The scaled dividend never passes the bound when it starts below it. -/
theorem scaleUpLoop_bound {ma left j : Nat} (h : ma * 10 ^ j ≤ Config.wideLimit) :
    ma * 10 ^ scaleUpLoop ma left j ≤ Config.wideLimit := by
  induction left generalizing j with
  | zero => simpa [scaleUpLoop] using h
  | succ n ih =>
    simp only [scaleUpLoop]; split
    · rename_i h'; exact ih h'
    · exact h

/-- The loop stops early only where one more digit would pass the bound. -/
theorem scaleUpLoop_stop {ma left j : Nat} (h : scaleUpLoop ma left j < j + left) :
    Config.wideLimit < ma * 10 ^ (scaleUpLoop ma left j + 1) := by
  induction left generalizing j with
  | zero => simp [scaleUpLoop] at h
  | succ n ih =>
    simp only [scaleUpLoop] at h ⊢; split
    · rename_i h'; rw [if_pos h'] at h; exact ih (by omega)
    · rename_i h'; omega

theorem shrinkQuotient_scale_le (t q : Nat) : (shrinkQuotient t q).2 ≤ t := by
  induction t generalizing q with
  | zero => simp [shrinkQuotient]
  | succ t ih =>
    simp only [shrinkQuotient]; split
    · exact Nat.le_succ_of_le (ih _)
    · simp

/-- The shrink loop divides once by the power of ten it takes off the precision. -/
theorem shrinkQuotient_div (t q : Nat) : (shrinkQuotient t q).1 = q / 10 ^ (t - (shrinkQuotient t q).2) := by
  induction t generalizing q with
  | zero => simp [shrinkQuotient]
  | succ t ih =>
    simp only [shrinkQuotient]; split
    · have := shrinkQuotient_scale_le t (q / 10)
      rw [ih, Nat.div_div_eq_div_mul, Nat.succ_sub this, pow_succ']
    · simp

theorem settleQuotient_mant_lt (q : Nat) (t : Int) : (settleQuotient q t).1 < 2 ^ 96 := by
  unfold settleQuotient; split <;> exact capTrunc_lt _

theorem settleQuotient_scale_le (q : Nat) (t : Int) : (settleQuotient q t).2 ≤ t.toNat := by
  unfold settleQuotient; split
  · simp
  · exact shrinkQuotient_scale_le _ _

/-- The exponent of the scale-up never passes the wanted one. -/
theorem scaleUpExponent_le (extra : Nat) (x y : Dec) :
    scaleUpExponent extra x y ≤ targetPrecision extra x.scale y.scale + y.scale - x.scale := by
  simpa [scaleUpExponent] using scaleUpLoop_le x.mant (targetPrecision extra x.scale y.scale + y.scale - x.scale) 0

/-- The tracked precision never passes 28. -/
theorem scaleUp_precision_le {extra : Nat} {x y : Dec} (hx : x.scale ≤ 28) :
    (scaleUp extra x y).2 ≤ 28 := by
  have h := scaleUpExponent_le extra x y
  have hp : targetPrecision extra x.scale y.scale ≤ 28 := by simp [targetPrecision, Config.maxScale]
  have hp' : x.scale ≤ targetPrecision extra x.scale y.scale := by
    simp only [targetPrecision, Config.maxScale]; omega
  simp only [scaleUp]; omega

/-! ## Rounding (R110 to R112) -/

theorem truncatedMantissa_le (m n : Nat) : truncatedMantissa m n ≤ m := Nat.div_le_self _ _

/-- "T + 1 never reaches 2^96" (R111). -/
theorem roundedMantissa_lt {mode : RoundingMode} {g : Bool} {m n : Nat} (hm : m < 2 ^ 96) (hn : 0 < n) :
    roundedMantissa mode g m n < 2 ^ 96 := by
  have h : truncatedMantissa m n ≤ m / 10 := by
    unfold truncatedMantissa
    exact Nat.div_le_div_left (by calc 10 = 10 ^ 1 := by norm_num
      _ ≤ 10 ^ n := Nat.pow_le_pow_right (by norm_num) hn) (by norm_num)
  unfold roundedMantissa
  split <;> omega

theorem decRound_bounds {places : Int} {mode : RoundingMode} {x : Dec} (hm : x.mant < 2 ^ 96) (hs : x.scale ≤ 28) :
    (decRound places mode x).mant < 2 ^ 96 ∧ (decRound places mode x).scale ≤ 28 := by
  unfold decRound
  split
  · exact ⟨(decNormalize_mant_le _).trans_lt hm, (decNormalize_scale_le _).trans hs⟩
  · rename_i h
    exact ⟨(decNormalize_mant_le _).trans_lt (roundedMantissa_lt hm (by omega)), (decNormalize_scale_le _).trans (by simp only; omega)⟩

theorem decRound_canonical (places : Int) (mode : RoundingMode) (x : Dec) : (decRound places mode x).Canonical := by
  unfold decRound; split <;> exact decNormalize_canonical _

/-! ## Exactness and lifted values (R85, R90, R92) -/

/-- Round-half-up takes trailing zero digits off exactly. -/
theorem rhu_mul_pow (m n : Nat) : rhu (m * 10 ^ n) n = m := by
  unfold rhu; split
  · rename_i h; simp [h]
  · simp

/-- FIT keeps the value of a multiple of ten to a power it may drop. -/
theorem fit_value {s m e : Nat} (hm : m < 2 ^ 96) (he : e ≤ s) (g : Bool) :
    Dec.value ⟨g, (fit s (m * 10 ^ e)).1, (fit s (m * 10 ^ e)).2⟩ = Dec.value ⟨g, m * 10 ^ e, s⟩ := by
  induction e generalizing s with
  | zero => simp [fit_of_lt hm]
  | succ e ih =>
    cases s with
    | zero => omega
    | succ s =>
      by_cases h : Config.mantissaBound ≤ m * 10 ^ (e + 1)
      · have : fit (s + 1) (m * 10 ^ (e + 1)) = fit s (m * 10 ^ e) := by
          rw [fit, if_pos h, pow_succ, ← mul_assoc]
          exact congrArg (fit s) (rhu_mul_pow (m * 10 ^ e) 1)
        rw [this, ih (by omega)]
        simp only [Dec.value]; push_cast
        rw [div_eq_div_iff (by positivity) (by positivity)]; ring
      · rw [fit, if_neg h, capTrunc_of_lt (by simp [Config.mantissaBound] at h; omega)]

/-- The lifted magnitude is the value at that scale. -/
theorem lifted_value (x : Dec) {s : Nat} (h : x.scale ≤ s) : (x.lifted s : ℚ) = x.value * 10 ^ s := by
  obtain ⟨k, rfl⟩ := Nat.exists_eq_add_of_le h
  unfold Dec.lifted Dec.value
  push_cast
  rw [Nat.add_sub_cancel_left, pow_add]
  have : (10 : ℚ) ^ x.scale ≠ 0 := by positivity
  split <;> simp <;> field_simp

end Sys2Proof.Machine
end

