-- ==== Sys2Proof/Laws/State.lean ====
section
/-! SUPPORT. One lemma per field per update of State, each true by rfl, so that no proof unfolds a record update. -/

namespace Sys2Proof.Machine

/-! ## State.complete -/

@[simp] theorem State.complete_a (s : State) (v : Quad) : (s.complete v).a = s.a := rfl
@[simp] theorem State.complete_b (s : State) (v : Quad) : (s.complete v).b = s.b := rfl
@[simp] theorem State.complete_r (s : State) (v : Quad) : (s.complete v).r = v := rfl
@[simp] theorem State.complete_la (s : State) (v : Quad) : (s.complete v).la = s.la := rfl
@[simp] theorem State.complete_lb (s : State) (v : Quad) : (s.complete v).lb = s.lb := rfl
@[simp] theorem State.complete_lcmd (s : State) (v : Quad) : (s.complete v).lcmd = s.lcmd := rfl
@[simp] theorem State.complete_busy (s : State) (v : Quad) : (s.complete v).busy = false := rfl
@[simp] theorem State.complete_err (s : State) (v : Quad) : (s.complete v).err = ErrCode.none := rfl
@[simp] theorem State.complete_inReset (s : State) (v : Quad) : (s.complete v).inReset = s.inReset := rfl
@[simp] theorem State.complete_inputs (s : State) (v : Quad) : (s.complete v).inputs = s.inputs := rfl
@[simp] theorem State.complete_readLog (s : State) (v : Quad) : (s.complete v).readLog = s.readLog := rfl
@[simp] theorem State.complete_freeCount (s : State) (v : Quad) : (s.complete v).freeCount = s.freeCount := rfl

/-! ## State.raise -/

@[simp] theorem State.raise_a (s : State) (e : ErrCode) : (s.raise e).a = s.a := rfl
@[simp] theorem State.raise_b (s : State) (e : ErrCode) : (s.raise e).b = s.b := rfl
@[simp] theorem State.raise_r (s : State) (e : ErrCode) : (s.raise e).r = s.r := rfl
@[simp] theorem State.raise_la (s : State) (e : ErrCode) : (s.raise e).la = s.la := rfl
@[simp] theorem State.raise_lb (s : State) (e : ErrCode) : (s.raise e).lb = s.lb := rfl
@[simp] theorem State.raise_lcmd (s : State) (e : ErrCode) : (s.raise e).lcmd = s.lcmd := rfl
@[simp] theorem State.raise_busy (s : State) (e : ErrCode) : (s.raise e).busy = false := rfl
@[simp] theorem State.raise_err (s : State) (e : ErrCode) : (s.raise e).err = e := rfl
@[simp] theorem State.raise_inReset (s : State) (e : ErrCode) : (s.raise e).inReset = s.inReset := rfl
@[simp] theorem State.raise_inputs (s : State) (e : ErrCode) : (s.raise e).inputs = s.inputs := rfl
@[simp] theorem State.raise_readLog (s : State) (e : ErrCode) : (s.raise e).readLog = s.readLog := rfl
@[simp] theorem State.raise_freeCount (s : State) (e : ErrCode) : (s.raise e).freeCount = s.freeCount := rfl

/-! ## State.issue -/

@[simp] theorem State.issue_a (s : State) (w : Word) : (s.issue w).a = s.a := rfl
@[simp] theorem State.issue_b (s : State) (w : Word) : (s.issue w).b = s.b := rfl
@[simp] theorem State.issue_r (s : State) (w : Word) : (s.issue w).r = s.r := rfl
@[simp] theorem State.issue_la (s : State) (w : Word) : (s.issue w).la = s.a := rfl
@[simp] theorem State.issue_lb (s : State) (w : Word) : (s.issue w).lb = s.b := rfl
@[simp] theorem State.issue_lcmd (s : State) (w : Word) : (s.issue w).lcmd = w := rfl
@[simp] theorem State.issue_busy (s : State) (w : Word) : (s.issue w).busy = true := rfl
@[simp] theorem State.issue_err (s : State) (w : Word) : (s.issue w).err = s.err := rfl
@[simp] theorem State.issue_inReset (s : State) (w : Word) : (s.issue w).inReset = s.inReset := rfl
@[simp] theorem State.issue_inputs (s : State) (w : Word) : (s.issue w).inputs = s.inputs := rfl
@[simp] theorem State.issue_readLog (s : State) (w : Word) : (s.issue w).readLog = s.readLog := rfl
@[simp] theorem State.issue_freeCount (s : State) (w : Word) : (s.issue w).freeCount = s.freeCount := rfl

/-! ## State.clearRegisters -/

@[simp] theorem State.clearRegisters_a (s : State) : (s.clearRegisters).a = 0 := rfl
@[simp] theorem State.clearRegisters_b (s : State) : (s.clearRegisters).b = 0 := rfl
@[simp] theorem State.clearRegisters_r (s : State) : (s.clearRegisters).r = 0 := rfl
@[simp] theorem State.clearRegisters_la (s : State) : (s.clearRegisters).la = 0 := rfl
@[simp] theorem State.clearRegisters_lb (s : State) : (s.clearRegisters).lb = 0 := rfl
@[simp] theorem State.clearRegisters_lcmd (s : State) : (s.clearRegisters).lcmd = 0 := rfl
@[simp] theorem State.clearRegisters_busy (s : State) : (s.clearRegisters).busy = false := rfl
@[simp] theorem State.clearRegisters_err (s : State) : (s.clearRegisters).err = ErrCode.none := rfl
@[simp] theorem State.clearRegisters_inReset (s : State) : (s.clearRegisters).inReset = s.inReset := rfl
@[simp] theorem State.clearRegisters_inputs (s : State) : (s.clearRegisters).inputs = s.inputs := rfl
@[simp] theorem State.clearRegisters_readLog (s : State) : (s.clearRegisters).readLog = s.readLog := rfl
@[simp] theorem State.clearRegisters_freeCount (s : State) : (s.clearRegisters).freeCount = s.freeCount := rfl

/-! ## State.assertReset -/

@[simp] theorem State.assertReset_a (s : State) : (s.assertReset).a = 0 := rfl
@[simp] theorem State.assertReset_b (s : State) : (s.assertReset).b = 0 := rfl
@[simp] theorem State.assertReset_r (s : State) : (s.assertReset).r = 0 := rfl
@[simp] theorem State.assertReset_la (s : State) : (s.assertReset).la = 0 := rfl
@[simp] theorem State.assertReset_lb (s : State) : (s.assertReset).lb = 0 := rfl
@[simp] theorem State.assertReset_lcmd (s : State) : (s.assertReset).lcmd = 0 := rfl
@[simp] theorem State.assertReset_busy (s : State) : (s.assertReset).busy = false := rfl
@[simp] theorem State.assertReset_err (s : State) : (s.assertReset).err = ErrCode.none := rfl
@[simp] theorem State.assertReset_inReset (s : State) : (s.assertReset).inReset = true := rfl
@[simp] theorem State.assertReset_inputs (s : State) : (s.assertReset).inputs = s.inputs := rfl
@[simp] theorem State.assertReset_readLog (s : State) : (s.assertReset).readLog = s.readLog := rfl
@[simp] theorem State.assertReset_freeCount (s : State) : (s.assertReset).freeCount = s.freeCount := rfl

/-! ## State.answer -/

@[simp] theorem State.answer_a (s : State) (w : Word) : (s.answer w).a = s.a := rfl
@[simp] theorem State.answer_b (s : State) (w : Word) : (s.answer w).b = s.b := rfl
@[simp] theorem State.answer_r (s : State) (w : Word) : (s.answer w).r = s.r := rfl
@[simp] theorem State.answer_la (s : State) (w : Word) : (s.answer w).la = s.la := rfl
@[simp] theorem State.answer_lb (s : State) (w : Word) : (s.answer w).lb = s.lb := rfl
@[simp] theorem State.answer_lcmd (s : State) (w : Word) : (s.answer w).lcmd = s.lcmd := rfl
@[simp] theorem State.answer_busy (s : State) (w : Word) : (s.answer w).busy = s.busy := rfl
@[simp] theorem State.answer_err (s : State) (w : Word) : (s.answer w).err = s.err := rfl
@[simp] theorem State.answer_inReset (s : State) (w : Word) : (s.answer w).inReset = s.inReset := rfl
@[simp] theorem State.answer_inputs (s : State) (w : Word) : (s.answer w).inputs = s.inputs := rfl
@[simp] theorem State.answer_readLog (s : State) (w : Word) : (s.answer w).readLog = w :: s.readLog := rfl
@[simp] theorem State.answer_freeCount (s : State) (w : Word) : (s.answer w).freeCount = s.freeCount := rfl

/-! ## State.answerFree -/

@[simp] theorem State.answerFree_a (s : State) : (s.answerFree).a = s.a := rfl
@[simp] theorem State.answerFree_b (s : State) : (s.answerFree).b = s.b := rfl
@[simp] theorem State.answerFree_r (s : State) : (s.answerFree).r = s.r := rfl
@[simp] theorem State.answerFree_la (s : State) : (s.answerFree).la = s.la := rfl
@[simp] theorem State.answerFree_lb (s : State) : (s.answerFree).lb = s.lb := rfl
@[simp] theorem State.answerFree_lcmd (s : State) : (s.answerFree).lcmd = s.lcmd := rfl
@[simp] theorem State.answerFree_busy (s : State) : (s.answerFree).busy = s.busy := rfl
@[simp] theorem State.answerFree_err (s : State) : (s.answerFree).err = s.err := rfl
@[simp] theorem State.answerFree_inReset (s : State) : (s.answerFree).inReset = s.inReset := rfl
@[simp] theorem State.answerFree_inputs (s : State) : (s.answerFree).inputs = s.inputs := rfl
@[simp] theorem State.answerFree_readLog (s : State) : (s.answerFree).readLog = Config.resetReadData s.freeCount :: s.readLog := rfl
@[simp] theorem State.answerFree_freeCount (s : State) : (s.answerFree).freeCount = s.freeCount + 1 := rfl

/-! ## State.issueNext -/

@[simp] theorem State.issueNext_a (s : State) (w : Word) : (s.issueNext w).a = s.a := rfl
@[simp] theorem State.issueNext_b (s : State) (w : Word) : (s.issueNext w).b = s.b := rfl
@[simp] theorem State.issueNext_r (s : State) (w : Word) : (s.issueNext w).r = s.r := rfl
@[simp] theorem State.issueNext_la (s : State) (w : Word) : (s.issueNext w).la = s.a := rfl
@[simp] theorem State.issueNext_lb (s : State) (w : Word) : (s.issueNext w).lb = s.b := rfl
@[simp] theorem State.issueNext_lcmd (s : State) (w : Word) : (s.issueNext w).lcmd = w := rfl
@[simp] theorem State.issueNext_busy (s : State) (w : Word) : (s.issueNext w).busy = true := rfl
@[simp] theorem State.issueNext_err (s : State) (w : Word) : (s.issueNext w).err = s.err := rfl
@[simp] theorem State.issueNext_inReset (s : State) (w : Word) : (s.issueNext w).inReset = false := rfl
@[simp] theorem State.issueNext_inputs (s : State) (w : Word) : (s.issueNext w).inputs = .complete :: s.inputs := rfl
@[simp] theorem State.issueNext_readLog (s : State) (w : Word) : (s.issueNext w).readLog = s.readLog := rfl
@[simp] theorem State.issueNext_freeCount (s : State) (w : Word) : (s.issueNext w).freeCount = s.freeCount := rfl

/-! ## State.finish: what it keeps, whichever way the command ends -/

@[simp] theorem State.finish_a (s : State) (res : CmdResult) : (s.finish res).a = s.a := by cases res <;> rfl
@[simp] theorem State.finish_b (s : State) (res : CmdResult) : (s.finish res).b = s.b := by cases res <;> rfl
@[simp] theorem State.finish_la (s : State) (res : CmdResult) : (s.finish res).la = s.la := by cases res <;> rfl
@[simp] theorem State.finish_lb (s : State) (res : CmdResult) : (s.finish res).lb = s.lb := by cases res <;> rfl
@[simp] theorem State.finish_lcmd (s : State) (res : CmdResult) : (s.finish res).lcmd = s.lcmd := by cases res <;> rfl
@[simp] theorem State.finish_busy (s : State) (res : CmdResult) : (s.finish res).busy = false := by cases res <;> rfl
@[simp] theorem State.finish_inReset (s : State) (res : CmdResult) : (s.finish res).inReset = s.inReset := by cases res <;> rfl
@[simp] theorem State.finish_inputs (s : State) (res : CmdResult) : (s.finish res).inputs = s.inputs := by cases res <;> rfl
@[simp] theorem State.finish_readLog (s : State) (res : CmdResult) : (s.finish res).readLog = s.readLog := by cases res <;> rfl
@[simp] theorem State.finish_freeCount (s : State) (res : CmdResult) : (s.finish res).freeCount = s.freeCount := by cases res <;> rfl
@[simp] theorem State.finish_complete_r (s : State) (v : Quad) : (s.finish (.complete v)).r = v := rfl
@[simp] theorem State.finish_raise_r (s : State) (e : ErrCode) : (s.finish (.raise e)).r = s.r := rfl
@[simp] theorem State.finish_complete_err (s : State) (v : Quad) : (s.finish (.complete v)).err = ErrCode.none := rfl
@[simp] theorem State.finish_raise_err (s : State) (e : ErrCode) : (s.finish (.raise e)).err = e := rfl

end Sys2Proof.Machine
end

