-- ==== Sys2Proof/Laws/Exec.lean ====
section
/-! SUPPORT. What a command does, said once: `exec` finishes the command with a result that is a function of the instruction and the
two latches alone. Proofs cite `exec_eq` instead of unfolding the meanings. -/

namespace Sys2Proof.Machine

/-- The result of an instruction on the latched operands. -/
def Instr.result (i : Instr) (a b : Quad) : CmdResult :=
  match i with
  | .add => .complete (wideAdd a b)
  | .sub => .complete (wideSub a b)
  | .neg => .complete (wideNeg a)
  | .abs => .complete (wideAbs a)
  | .mul => .complete (wideMul a b)
  | .div => wideDiv a b
  | .mod => wideMod a b
  | .isqrt => wideIsqrt a
  | .scl10 k => wideScl10 k a
  | .dadd => withDecs a b fun x y => .complete (enc (decAdd x y))
  | .dsub => withDecs a b fun x y => .complete (enc (decSub x y))
  | .dmul => withDecs a b fun x y => .complete (enc (decMul x y))
  | .ddiv => withDecs a b fun x y => decDiv Config.divExtraPrecision x y
  | .drnd places mode => withDec a fun x => .complete (enc (decRound places mode x))
  | .dnorm => withDec a fun x => .complete (enc (decNormalize x))
  | .dceil => withDec a fun x => .complete (enc (decRound 0 .toPositiveInfinity x))
  | .dfloor => withDec a fun x => .complete (enc (decRound 0 .toNegativeInfinity x))
  | .dtrunc => withDec a fun x => .complete (enc (decRound 0 .toZero x))

/-- Every command ends in a next state, its result written to the state. -/
theorem exec_eq (i : Instr) (s : State) : exec i s = .next (s.finish (Instr.result i s.la s.lb)) := by
  cases i <;> rfl

/-- The result of a command word: ILLEGAL when it does not decode. -/
def wordResult (w : Word) (a b : Quad) : CmdResult :=
  match decode w with
  | .error _ => .raise .illegal
  | .ok i => Instr.result i a b

/-- The completion step finishes the latched command. -/
theorem perform_eq (s : State) : s.perform = .next (s.finish (wordResult s.lcmd s.la s.lb)) := by
  unfold State.perform wordResult
  split <;> simp_all [exec_eq, State.finishNext]

/-- No command raises NONE: an error code stands for an error. -/
theorem result_raise_ne_none {i : Instr} {a b : Quad} {e : ErrCode} (h : Instr.result i a b = .raise e) : e ≠ .none := by
  rintro rfl
  cases i <;>
    simp only [Instr.result, wideDiv, wideMod, wideIsqrt, wideScl10, withDecs, withDec, decDiv, reduceCtorEq] at h <;>
    (repeat' split at h) <;> simp_all

/-- What a finished command leaves: R when it completed, ERR and BUSY. -/
theorem finish_cases (s : State) (res : CmdResult) :
    (∃ v, res = .complete v ∧ s.finish res = { s with r := v, err := .none, busy := false }) ∨
    (∃ e, res = .raise e ∧ s.finish res = { s with err := e, busy := false }) := by
  cases res with
  | complete v => exact .inl ⟨v, rfl, rfl⟩
  | raise e => exact .inr ⟨e, rfl, rfl⟩

/-- Finishing twice with one result is finishing once. -/
@[simp] theorem finish_finish (s : State) (res : CmdResult) : (s.finish res).finish res = s.finish res := by
  cases res <;> rfl

/-! ## The statements' forms -/

/-- `Completes` is a fact about the result alone. -/
theorem completes_iff {i : Instr} {a b v : Quad} : Completes i a b v ↔ Instr.result i a b = .complete v := by
  constructor
  · intro h
    have h' := h { State.reset with la := a, lb := b, r := ~~~v, err := .illegal, busy := true } rfl rfl
    rw [exec_eq] at h'
    cases hr : Instr.result i a b with
    | complete w => simp only [hr] at h'; simp [State.finish, State.complete] at h'; rw [h']
    | raise e => simp only [hr] at h'; simp [State.finish, State.raise] at h'
  · rintro h s rfl rfl
    rw [exec_eq, h]; rfl

/-- `Raises` is a fact about the result alone. -/
theorem raises_iff {i : Instr} {a b : Quad} {e : ErrCode} (he : e ≠ .none) :
    Raises i a b e ↔ Instr.result i a b = .raise e := by
  constructor
  · intro h
    have h' := h { State.reset with la := a, lb := b, busy := true } rfl rfl
    rw [exec_eq] at h'
    cases hr : Instr.result i a b with
    | complete w => simp only [hr] at h'; simp [State.finish, State.complete] at h'; exact absurd h'.2.symm he
    | raise e' => simp only [hr] at h'; simpa [State.finish, State.raise] using h'
  · rintro h s rfl rfl
    rw [exec_eq, h]; rfl

end Sys2Proof.Machine
end

