-- ==== Sys2Proof/Laws/PerInstr.lean ====
section
/-! SUPPORT. Facts about every instruction as syntax, one lemma per constructor. -/

namespace Sys2Proof.Laws

/-- The word of an instruction has the fields R55 gives it: its opcode, RM and IMM8 where R56 extracts them, the reserved bits 0. -/
def EncodedFields.Statement (i : Instr) : Prop :=
  opField (encode i) = i.opcode ∧ rmField (encode i) = i.rmBits ∧ immField (encode i) = i.immBits ∧ rsvField (encode i) = 0

/-- The fields of a packed word. -/
theorem fields_packWord (op : BitVec 8) (rm : BitVec 3) (imm : BitVec 8) :
    opField (packWord op rm imm) = op ∧ rmField (packWord op rm imm) = rm ∧ immField (packWord op rm imm) = imm ∧
      rsvField (packWord op rm imm) = 0 := by
  have h1 := op.isLt
  have h2 := rm.isLt
  have h3 := imm.isLt
  refine ⟨?_, ?_, ?_, ?_⟩ <;> apply BitVec.eq_of_toNat_eq <;>
    simp only [opField, rmField, immField, rsvField, packWord, Machine.toNat_append_eq, Machine.toNat_extractLsb'_eq] <;>
    simp <;> omega

theorem EncodedFields.add : EncodedFields.Statement .add := fields_packWord _ _ _
theorem EncodedFields.sub : EncodedFields.Statement .sub := fields_packWord _ _ _
theorem EncodedFields.neg : EncodedFields.Statement .neg := fields_packWord _ _ _
theorem EncodedFields.abs : EncodedFields.Statement .abs := fields_packWord _ _ _
theorem EncodedFields.mul : EncodedFields.Statement .mul := fields_packWord _ _ _
theorem EncodedFields.div : EncodedFields.Statement .div := fields_packWord _ _ _
theorem EncodedFields.mod : EncodedFields.Statement .mod := fields_packWord _ _ _
theorem EncodedFields.isqrt : EncodedFields.Statement .isqrt := fields_packWord _ _ _
theorem EncodedFields.scl10 (k : Nat) : EncodedFields.Statement (.scl10 k) := fields_packWord _ _ _
theorem EncodedFields.dadd : EncodedFields.Statement .dadd := fields_packWord _ _ _
theorem EncodedFields.dsub : EncodedFields.Statement .dsub := fields_packWord _ _ _
theorem EncodedFields.dmul : EncodedFields.Statement .dmul := fields_packWord _ _ _
theorem EncodedFields.ddiv : EncodedFields.Statement .ddiv := fields_packWord _ _ _
theorem EncodedFields.drnd (places : Int) (mode : RoundingMode) : EncodedFields.Statement (.drnd places mode) :=
  fields_packWord _ _ _
theorem EncodedFields.dnorm : EncodedFields.Statement .dnorm := fields_packWord _ _ _
theorem EncodedFields.dceil : EncodedFields.Statement .dceil := fields_packWord _ _ _
theorem EncodedFields.dfloor : EncodedFields.Statement .dfloor := fields_packWord _ _ _
theorem EncodedFields.dtrunc : EncodedFields.Statement .dtrunc := fields_packWord _ _ _

end Sys2Proof.Laws
end

