-- ==== Sys2Proof/Laws/Port.lean ====
section
/-! SUPPORT. The port's functions, each said once: where an address falls, what an access does, what a step does with its input. -/

namespace Sys2Proof.Machine

/-! ## Addresses -/

/-- An offset inside the window is found again from its address. -/
@[simp] theorem windowOffset_base (off : Nat) (h : off < 64) : windowOffset (Config.coreBase + off) = some off := by
  simp [windowOffset, windowSize, h]

theorem windowOffset_eq_some {addr off : Nat} :
    windowOffset addr = some off ↔ addr = Config.coreBase + off ∧ off < 64 := by
  unfold windowOffset windowSize
  split
  · simp only [Option.some.injEq]; omega
  · simp only [reduceCtorEq, false_iff]; omega

theorem windowOffset_eq_none {addr : Nat} :
    windowOffset addr = none ↔ addr < Config.coreBase ∨ Config.coreBase + 64 ≤ addr := by
  unfold windowOffset windowSize
  split
  · simp only [reduceCtorEq, false_iff]; omega
  · simp only [true_iff]; omega

theorem acceptedAccess_iff {width : Width} {off : Nat} : acceptedAccess width off = true ↔ width = .w32 ∧ off % 4 = 0 := by
  simp [acceptedAccess]

/-! ## Accesses -/

theorem hostRead_base (s : State) (off : Nat) (h : off < 64) (hr : s.inReset = false) (ha : off % 4 = 0) :
    s.hostRead (Config.coreBase + off) .w32 = .next (s.answer (s.readReg (windowReg off))) := by
  simp [State.hostRead, windowOffset_base off h, hr, State.readAt, acceptedAccess, ha]

theorem hostWrite_base (s : State) (off : Nat) (data : BitVec 64) (h : off < 64) (hr : s.inReset = false) (ha : off % 4 = 0) :
    s.hostWrite (Config.coreBase + off) .w32 data = s.writeReg (data.setWidth 32) (windowReg off) := by
  simp [State.hostWrite, windowOffset_base off h, hr, State.writeAt, acceptedAccess, ha]

/-- What a read answers next: it was ignored in reset with a free answer, or accepted and answered with the register. -/
theorem hostRead_cases {s t : State} {addr : Nat} {width : Width} (h : s.hostRead addr width = .next t) :
    (s.inReset = true ∧ t = s.answerFree) ∨
    (s.inReset = false ∧ ∃ off, windowOffset addr = some off ∧ width = .w32 ∧ off % 4 = 0 ∧
      t = s.answer (s.readReg (windowReg off))) := by
  unfold State.hostRead at h
  split at h
  · cases h
  · rename_i off hoff
    split at h
    · rename_i hr; cases h; exact .inl ⟨hr, rfl⟩
    · rename_i hr
      unfold State.readAt at h
      split at h
      · rename_i ha; cases h
        exact .inr ⟨by simpa using hr, off, hoff, (acceptedAccess_iff.1 ha).1, (acceptedAccess_iff.1 ha).2, rfl⟩
      · cases h

/-- What a register write answers next. -/
theorem writeReg_cases {s t : State} {v : Word} {reg : WindowReg} (h : s.writeReg v reg = .next t) :
    (∃ i, reg = .a i ∧ t = { s with a := setQuadWord s.a i v }) ∨
    (∃ i, reg = .b i ∧ t = { s with b := setQuadWord s.b i v }) ∨
    (reg = .cmd ∧ s.busy = false ∧ t = s.issue v) ∨
    ((∃ i, reg = .r i) ∨ reg = .status ∨ reg = .reserved) ∧ t = s := by
  cases reg with
  | a i => cases h; exact .inl ⟨i, rfl, rfl⟩
  | b i => cases h; exact .inr (.inl ⟨i, rfl, rfl⟩)
  | r i => cases h; exact .inr (.inr (.inr ⟨.inl ⟨i, rfl⟩, rfl⟩))
  | cmd =>
    simp only [State.writeReg] at h
    split at h
    · cases h
    · rename_i hb; cases h; exact .inr (.inr (.inl ⟨rfl, by simpa using hb, rfl⟩))
  | status => cases h; exact .inr (.inr (.inr ⟨.inr (.inl rfl), rfl⟩))
  | reserved => cases h; exact .inr (.inr (.inr ⟨.inr (.inr rfl), rfl⟩))

/-- What a write answers next: it was ignored in reset, or accepted and written. -/
theorem hostWrite_cases {s t : State} {addr : Nat} {width : Width} {data : BitVec 64}
    (h : s.hostWrite addr width data = .next t) :
    (s.inReset = true ∧ t = s) ∨
    (s.inReset = false ∧ ∃ off, windowOffset addr = some off ∧ width = .w32 ∧ off % 4 = 0 ∧
      s.writeReg (data.setWidth 32) (windowReg off) = .next t) := by
  unfold State.hostWrite at h
  split at h
  · cases h
  · rename_i off hoff
    split at h
    · rename_i hr; cases h; exact .inl ⟨hr, rfl⟩
    · rename_i hr
      unfold State.writeAt at h
      split at h
      · rename_i ha
        exact .inr ⟨by simpa using hr, off, hoff, (acceptedAccess_iff.1 ha).1, (acceptedAccess_iff.1 ha).2, h⟩
      · cases h

/-! ## The step, by its input -/

theorem step_nil (s : State) (h : s.inputs = []) : step s = s.coreMove := by
  simp [step, State.advance, h]

theorem step_cons (s : State) (e : Input) (rest : List Input) (h : s.inputs = e :: rest) :
    step s = { s with inputs := rest }.move e := by
  simp [step, State.advance, h]

theorem coreMove_inReset (s : State) (h : s.inReset = true) : s.coreMove = .next s := by
  simp [State.coreMove, h]

theorem coreMove_idle (s : State) (h : s.busy = false) : s.coreMove = .next s := by
  simp [State.coreMove, h]

theorem coreMove_busy (s : State) (hr : s.inReset = false) (h : s.busy = true) : s.coreMove = s.perform := by
  simp [State.coreMove, hr, h]

/-- The state that reads of the window, the latches and STATUS see, with other inputs, is the same. -/
@[simp] theorem readReg_inputs (s : State) (l : List Input) (reg : WindowReg) :
    State.readReg { s with inputs := l } reg = s.readReg reg := by cases reg <;> rfl

/-- An accepted read of the window, as a step. -/
theorem step_memRead {s : State} {off : Nat} {rest : List Input} (hin : s.inputs = memRead off :: rest) (h : off < 64)
    (hr : s.inReset = false) (ha : off % 4 = 0) :
    step s = .next { s with inputs := rest, readLog := s.readReg (windowReg off) :: s.readLog } := by
  rw [step_cons _ _ _ hin]
  refine (hostRead_base { s with inputs := rest } off h hr ha).trans ?_
  simp [State.answer]

/-- An accepted write to the window, as a step. -/
theorem step_memWrite {s : State} {off : Nat} {v : Word} {rest : List Input} (hin : s.inputs = memWrite off v :: rest)
    (h : off < 64) (hr : s.inReset = false) (ha : off % 4 = 0) :
    step s = State.writeReg { s with inputs := rest } v (windowReg off) := by
  rw [step_cons _ _ _ hin]
  refine (hostWrite_base { s with inputs := rest } off _ h hr ha).trans ?_
  simp

/-- A run goes on from where its first step leads. -/
theorem run_succ_of_step {s t : State} (h : step s = .next t) (n : Nat) :
    Host.Core.run core (n + 1) s = Host.Core.run core n t := by
  have h' : core.step s = .next t := h
  simp only [Host.Core.run, h']

/-- Accepted reads one after another: each answer is the register's, and nothing but the answers changes. -/
theorem run_memReads (n : Nat) (rest : List Input) (offs : List Nat) (h : ∀ off ∈ offs, off < 64 ∧ off % 4 = 0) (s : State)
    (hr : s.inReset = false) :
    Host.Core.run core (offs.length + n) { s with inputs := offs.map memRead ++ rest } =
      Host.Core.run core n
        { s with inputs := rest, readLog := (offs.map fun off => s.readReg (windowReg off)).reverse ++ s.readLog } := by
  induction offs generalizing s with
  | nil => simp
  | cons off offs ih =>
    have h0 := h off (by simp)
    have hstep := step_memRead (s := { s with inputs := memRead off :: (offs.map memRead ++ rest) }) rfl h0.1 hr h0.2
    rw [List.length_cons, Nat.add_right_comm, List.map_cons, List.cons_append, run_succ_of_step hstep]
    refine (ih (fun o ho => h o (by simp [ho])) { s with readLog := s.readReg (windowReg off) :: s.readLog } hr).trans ?_
    have hread : ∀ (l : List Word) (reg : WindowReg), State.readReg { s with readLog := l } reg = s.readReg reg := by
      intro l reg; cases reg <;> rfl
    simp [hread]

end Sys2Proof.Machine
end

