-- ==== Sys2Proof/Laws/Step.lean ====
section
/-! SUPPORT. What a step can do, said once; proofs about every step go through `step_cases`. -/

namespace Sys2Proof.Machine

/-- The completion step. -/
theorem step_complete {s : State} {rest : List Input} (hin : s.inputs = .complete :: rest) (hr : s.inReset = false)
    (hb : s.busy = true) : step s = .next (State.finish { s with inputs := rest } (wordResult s.lcmd s.la s.lb)) := by
  rw [step_cons _ _ _ hin]
  exact (coreMove_busy { s with inputs := rest } hr hb).trans (perform_eq _)

/-- R and ERR are current exactly when finishing the latched command once more changes nothing. -/
theorem resultsCurrent_iff {s : State} : s.ResultsCurrent ↔ s.finish (wordResult s.lcmd s.la s.lb) = s := by
  unfold State.ResultsCurrent; rw [perform_eq]; simp

/-- A completion leaves current results. -/
theorem resultsCurrent_finish (s : State) : (s.finish (wordResult s.lcmd s.la s.lb)).ResultsCurrent := by
  rw [resultsCurrent_iff]; simp

/-- All that a step answering next can be: a read or an ignored move, a free answer in reset, an answer, a word of A or of B, an issue, a
completion, an assertion or a release of reset. Each takes its input off. -/
theorem step_cases {s t : State} (h : step s = .next t) :
   (t = { s with inputs := s.inputs.tail }) ∨
   (s.inReset = true ∧ ∃ w, t = { s with inputs := s.inputs.tail, readLog := w, freeCount := s.freeCount + 1 }) ∨
   (s.inReset = false ∧ ∃ w, t = { s with inputs := s.inputs.tail, readLog := w }) ∨
   (s.inReset = false ∧ ∃ x, t = { s with inputs := s.inputs.tail, a := x }) ∨
   (s.inReset = false ∧ ∃ x, t = { s with inputs := s.inputs.tail, b := x }) ∨
   (s.inReset = false ∧ s.busy = false ∧ ∃ w, t = ({ s with inputs := s.inputs.tail } : State).issue w) ∨
   (s.inReset = false ∧ s.busy = true ∧ t = ({ s with inputs := s.inputs.tail } : State).finish (wordResult s.lcmd s.la s.lb)) ∨
   (t = ({ s with inputs := s.inputs.tail } : State).assertReset) ∨
   (s.inReset = true ∧ t = { ({ s with inputs := s.inputs.tail } : State).clearRegisters with inReset := false }) := by
  have core : ∀ u : State, u = { s with inputs := s.inputs.tail } → u.coreMove = .next t → (t = u) ∨ (s.inReset = false ∧ s.busy = true ∧ t = u.finish (wordResult s.lcmd s.la s.lb)) := by
    intro u hu h
    unfold State.coreMove at h
    split at h
    · cases h; exact .inl rfl
    · split at h
      · rw [perform_eq] at h; cases h; subst hu; simp_all
      · cases h; exact .inl rfl
  cases hin : s.inputs with
  | nil =>
    rw [step_nil _ hin] at h
    have := core s (by cases s; simp_all) h
    rcases this with rfl | ⟨h1, h2, rfl⟩
    · left; cases t; simp_all
    · have : s = { s with inputs := s.inputs.tail } := by cases s; simp_all
      refine .inr (.inr (.inr (.inr (.inr (.inr (.inl ⟨h1, h2, ?_⟩))))))
      rw [hin] at this; rw [← this]
  | cons e rest =>
    rw [step_cons _ _ _ hin] at h
    simp only [List.tail_cons]
    rw [hin] at core; simp only [List.tail_cons] at core
    cases e with
    | read addr width =>
      rcases hostRead_cases h with ⟨h1, rfl⟩ | ⟨h1, _, -, -, -, rfl⟩
      · exact .inr (.inl ⟨h1, _, rfl⟩)
      · exact .inr (.inr (.inl ⟨h1, _, rfl⟩))
    | write addr width data =>
      rcases hostWrite_cases h with ⟨h1, rfl⟩ | ⟨h1, _, -, -, -, h4⟩
      · exact .inl rfl
      · rcases writeReg_cases h4 with ⟨i, -, rfl⟩ | ⟨i, -, rfl⟩ | ⟨-, h5, rfl⟩ | ⟨-, rfl⟩
        · exact .inr (.inr (.inr (.inl ⟨h1, _, rfl⟩)))
        · exact .inr (.inr (.inr (.inr (.inl ⟨h1, _, rfl⟩))))
        · exact .inr (.inr (.inr (.inr (.inr (.inl ⟨h1, h5, _, rfl⟩)))))
        · exact .inl rfl
    | complete =>
      rcases core _ rfl h with h | h
      · exact .inl h
      · exact .inr (.inr (.inr (.inr (.inr (.inr (.inl h))))))
    | assertReset => cases h; exact .inr (.inr (.inr (.inr (.inr (.inr (.inr (.inl rfl)))))))
    | releaseReset =>
      simp only [State.move, State.releaseReset] at h
      split at h
      · rename_i hr; cases h; exact .inr (.inr (.inr (.inr (.inr (.inr (.inr (.inr ⟨hr, rfl⟩)))))))
      · cases h; exact .inl rfl

end Sys2Proof.Machine
end

