-- ==== Sys2Proof/Laws/WideInteger.lean ====
section
/-! SUPPORT. The WideInteger units, each said once: the two-word adder is addition modulo 2^128, the square-root loop finds the root. -/

namespace Sys2Proof.Machine

theorem wideAdd_eq (a b : Quad) : wideAdd a b = a + b := by
  have ha := a.isLt
  have hb := b.isLt
  apply BitVec.eq_of_toNat_eq
  have hc : (BitVec.ofBool (((quadLo a).setWidth 65 + (quadLo b).setWidth 65 : BitVec 65).getLsbD 64)).toNat
      = (a.toNat % 2 ^ 64 + b.toNat % 2 ^ 64) / 2 ^ 64 := by
    simp only [BitVec.toNat_ofBool, BitVec.getLsbD, Nat.testBit_eq_decide_div_mod_eq, BitVec.toNat_add, BitVec.toNat_setWidth,
      toNat_quadLo]
    rcases Nat.mod_two_eq_zero_or_one
      ((a.toNat % 2 ^ 64 % 2 ^ 65 + b.toNat % 2 ^ 64 % 2 ^ 65) % 2 ^ 65 / 2 ^ 64) with h | h <;> rw [h] <;> simp <;> omega
  simp only [wideAdd, toNat_append_eq, BitVec.toNat_add, BitVec.toNat_setWidth, hc, toNat_quadLo, toNat_quadHi]
  omega

theorem wideSub_eq (a b : Quad) : wideSub a b = a - b := by
  have ha := a.isLt
  have hb := b.isLt
  apply BitVec.eq_of_toNat_eq
  simp only [wideSub, toNat_append_eq, BitVec.toNat_sub, toNat_quadLo, toNat_quadHi]
  split <;> simp <;> omega

theorem wideNeg_eq (a : Quad) : wideNeg a = -a := by
  rw [wideNeg, BitVec.neg_eq_not_add]; rfl

theorem wideMul_eq (a b : Quad) : wideMul a b = a * b := by
  apply BitVec.eq_of_toNat_eq
  rw [wideMul, u128_natCast]; simp

/-! ## The square root (R73) -/

/-- The loop keeps `r^2 ≤ n` and `n < (r + 2^i)^2`, for i bits still to come. -/
theorem isqrtLoop_spec {n i r : Nat} (h : r ^ 2 ≤ n) (h' : n < (r + 2 ^ i) ^ 2) :
    (isqrtLoop n i r) ^ 2 ≤ n ∧ n < (isqrtLoop n i r + 1) ^ 2 := by
  induction i generalizing r with
  | zero => exact ⟨h, h'⟩
  | succ i ih =>
    have e : r + 2 ^ i + 2 ^ i = r + 2 ^ (i + 1) := by rw [pow_succ]; omega
    simp only [isqrtLoop]
    split
    · rename_i hle; exact ih hle (by rw [e]; exact h')
    · rename_i hle; exact ih h (by omega)

/-- `r^2 ≤ n < (r + 1)^2`, below 2^128. -/
theorem isqrtNat_spec {n : Nat} (h : n < 2 ^ 128) : (isqrtNat n) ^ 2 ≤ n ∧ n < (isqrtNat n + 1) ^ 2 :=
  isqrtLoop_spec (by simp) (by norm_num at h ⊢; exact h)

/-- The bound of R73 determines the root. -/
theorem sqrt_unique {n r q : Nat} (hr : r ^ 2 ≤ n) (hr' : n < (r + 1) ^ 2) (hq : q ^ 2 ≤ n) (hq' : n < (q + 1) ^ 2) : r = q := by
  have h1 := lt_of_pow_lt_pow_left₀ 2 (by omega) (hr.trans_lt hq')
  have h2 := lt_of_pow_lt_pow_left₀ 2 (by omega) (hq.trans_lt hr')
  omega

end Sys2Proof.Machine
end

