-- ==== Sys2Proof/Tests/Slice0.lean ====
section
/-! SUPPORT. Tests: WellFormed's checks, decoding of words written out from R55 to R63, one step per instruction against the vectors of
95_test_vectors.md, the port and reset, and a witness for the hypotheses of each statement that has any. -/

namespace Sys2Proof.Tests

/- One proof after another: the tests' many short proofs, elaborated side by side, take a thread and its stack each. -/
set_option Elab.async false

open Sys2Proof Sys2Proof.Machine

/-! ## WellFormed refuses an ill-formed term of each check -/

theorem test_wf_scl10_39 : (Instr.scl10 39).wellFormed = false ∧ (Instr.scl10 38).wellFormed = true := by decide
theorem test_wf_places_range : (Instr.drnd 128 .toNearest).wellFormed = false ∧ (Instr.drnd (-129) .toNearest).wellFormed = false ∧
    (Instr.drnd 127 .toNearest).wellFormed = true ∧ (Instr.drnd (-128) .toNearest).wellFormed = true := by decide
theorem test_wf_pseudo_forms : (Instr.drnd 0 .toZero).wellFormed = false ∧ (Instr.drnd 0 .toPositiveInfinity).wellFormed = false ∧
    (Instr.drnd 0 .toNegativeInfinity).wellFormed = false ∧ (Instr.drnd 0 .toNearest).wellFormed = true ∧
    (Instr.drnd 1 .toZero).wellFormed = true := by decide

/-! ## Decoding: each word written out as reserved, IMM8, reserved and RM, OP (R55, R56, R58, R59) -/

theorem test_decode_add : decode 0b00000000_00000000_00000_000_00000001#32 = .ok .add := by decide
theorem test_decode_sub : decode 0b00000000_00000000_00000_000_00000010#32 = .ok .sub := by decide
theorem test_decode_neg : decode 0b00000000_00000000_00000_000_00000011#32 = .ok .neg := by decide
theorem test_decode_abs : decode 0b00000000_00000000_00000_000_00000100#32 = .ok .abs := by decide
theorem test_decode_mul : decode 0b00000000_00000000_00000_000_00000101#32 = .ok .mul := by decide
theorem test_decode_div : decode 0b00000000_00000000_00000_000_00000110#32 = .ok .div := by decide
theorem test_decode_mod : decode 0b00000000_00000000_00000_000_00000111#32 = .ok .mod := by decide
theorem test_decode_isqrt : decode 0b00000000_00000000_00000_000_00001000#32 = .ok .isqrt := by decide
theorem test_decode_scl10 : decode 0b00000000_00010011_00000_000_00001001#32 = .ok (.scl10 19) := by decide
theorem test_decode_dadd : decode 0b00000000_00000000_00000_000_00010001#32 = .ok .dadd := by decide
theorem test_decode_dsub : decode 0b00000000_00000000_00000_000_00010010#32 = .ok .dsub := by decide
theorem test_decode_dmul : decode 0b00000000_00000000_00000_000_00010011#32 = .ok .dmul := by decide
theorem test_decode_ddiv : decode 0b00000000_00000000_00000_000_00010100#32 = .ok .ddiv := by decide
theorem test_decode_drnd : decode 0b00000000_00000010_00000_100_00010101#32 = .ok (.drnd 2 .toNegativeInfinity) := by decide
theorem test_decode_dnorm : decode 0b00000000_00000000_00000_000_00010110#32 = .ok .dnorm := by decide
theorem test_decode_dceil : decode 0b00000000_00000000_00000_011_00010101#32 = .ok .dceil := by decide
theorem test_decode_dfloor : decode 0b00000000_00000000_00000_100_00010101#32 = .ok .dfloor := by decide
theorem test_decode_dtrunc : decode 0b00000000_00000000_00000_010_00010101#32 = .ok .dtrunc := by decide
theorem test_decode_negative_places : decode 0b00000000_11111101_00000_001_00010101#32 = .ok (.drnd (-3) .toNearestTiesAway) := by decide
theorem test_decode_illegal_a : decode 0x00000000 = .error .opcode ∧ decode 0x0000000A = .error .opcode ∧
    decode 0x00000010 = .error .opcode ∧ decode 0x00000017 = .error .opcode ∧ decode 0x000000FF = .error .opcode := by decide
theorem test_decode_illegal_b : decode 0x01000001 = .error .reserved ∧ decode 0x00000801 = .error .reserved := by decide
theorem test_decode_illegal_c : decode 0x00000101 = .error .roundingModeUnused ∧ decode 0x00000309 = .error .roundingModeUnused := by
  decide
theorem test_decode_illegal_d : decode 0x00000515 = .error .roundingModeUndefined ∧
    decode 0x00000615 = .error .roundingModeUndefined ∧ decode 0x00000715 = .error .roundingModeUndefined := by decide
theorem test_decode_illegal_e : decode 0x00010001 = .error .immediateUnused ∧ decode 0x00010016 = .error .immediateUnused := by decide
theorem test_decode_illegal_f : decode 0x00270009 = .error .powerOutOfTable ∧ decode 0x00FF0009 = .error .powerOutOfTable := by decide
theorem test_decodeTableWord : decodeTableWord 32 0x00130009 = some (.scl10 19) ∧ decodeTableWord 32 0x00270009 = none ∧
    decodeTableWord 8 0xFF01 = some .add ∧ decodeTableWord 64 0x100000001 = none := by decide

/-! ## One completion step per vector (95_test_vectors.md sections 1 and 2) -/

/-- The word `w` in flight on the operands `x` and `y`, its completion next; R and ERR hold values no command below leaves. -/
def inFlight (w : Word) (x y : Quad) : State :=
  { State.reset with r := 0xA5A5, err := .illegal, la := x, lb := y, lcmd := w, busy := true, inputs := [.complete] }

/-- R and ERR after one step, when BUSY is clear. -/
def ends (w : Word) (x y : Quad) : Option (Quad × ErrCode) :=
  match step (inFlight w x y) with
  | .next t => if t.busy then none else some (t.r, t.err)
  | .fault _ | .refused _ => none

/-- The command completed with `v`. -/
def gives (w : Word) (x y v : Quad) : Bool := ends w x y == some (v, .none)

/-- The command ended with the error `e`, R kept. -/
def fails (w : Word) (x y : Quad) (e : ErrCode) : Bool := ends w x y == some (0xA5A5, e)

theorem test_add_carry :
    gives 0x00000001 0x0000000000000000FFFFFFFFFFFFFFFF#128 0x1#128 0x00000000000000010000000000000000#128 = true := by decide +kernel
theorem test_add_carry_lost :
    gives 0x00000001 0xFFFFFFFFFFFFFFFFFFFFFFFFFFFFFFFF#128 0x1#128 0x0#128 = true := by decide +kernel
theorem test_sub_min_wraps :
    gives 0x00000002 0x80000000000000000000000000000000#128 0x1#128 0x7FFFFFFFFFFFFFFFFFFFFFFFFFFFFFFF#128 = true := by decide +kernel
theorem test_sub_borrow :
    gives 0x00000002 0x00000000000000010000000000000000#128 0x1#128 0x0000000000000000FFFFFFFFFFFFFFFF#128 = true := by decide +kernel
theorem test_neg_max :
    gives 0x00000003 0x7FFFFFFFFFFFFFFFFFFFFFFFFFFFFFFF#128 0x5#128 0x80000000000000000000000000000001#128 = true := by decide +kernel
theorem test_neg_min :
    gives 0x00000003 0x80000000000000000000000000000000#128 0x5#128 0x80000000000000000000000000000000#128 = true := by decide +kernel
theorem test_abs_negative :
    gives 0x00000004 0xFFFFFFFFFFFFFFFFFFFFFFFFFFFFFFFB#128 0x0#128 0x5#128 = true := by decide +kernel
theorem test_abs_min :
    gives 0x00000004 0x80000000000000000000000000000000#128 0x0#128 0x80000000000000000000000000000000#128 = true := by decide +kernel
theorem test_mul_signs :
    gives 0x00000005 0xFFFFFFFFFFFFFFFFFFFFFFFFFFFFFFFD#128 0x7#128 0xFFFFFFFFFFFFFFFFFFFFFFFFFFFFFFEB#128 = true := by decide +kernel
theorem test_mul_halves :
    gives 0x00000005 0x00000000000000008AC7230489E80000#128 0x00000000000000008AC7230489E80000#128 0x4B3B4CA85A86C47A098A224000000000#128 = true := by decide +kernel
theorem test_div_negative :
    gives 0x00000006 0xFFFFFFFFFFFFFFFFFFFFFFFFFFFFFFF9#128 0x2#128 0xFFFFFFFFFFFFFFFFFFFFFFFFFFFFFFFD#128 = true := by decide +kernel
theorem test_div_source :
    gives 0x00000006 0x0F0BDC21ABB48DB201E86D4000000000#128 0x000000000000000013A902D3D7CDAAA9#128 0x0000000000000000C3EBF5339583C3D4#128 = true := by decide +kernel
theorem test_mod_negative :
    gives 0x00000007 0xFFFFFFFFFFFFFFFFFFFFFFFFFFFFFFF9#128 0x2#128 0xFFFFFFFFFFFFFFFFFFFFFFFFFFFFFFFF#128 = true := by decide +kernel
theorem test_mod_negative_divisor :
    gives 0x00000007 0x7#128 0xFFFFFFFFFFFFFFFFFFFFFFFFFFFFFFFE#128 0x1#128 = true := by decide +kernel
theorem test_isqrt_max :
    gives 0x00000008 0x7FFFFFFFFFFFFFFFFFFFFFFFFFFFFFFF#128 0x0#128 0x0000000000000000B504F333F9DE6484#128 = true := by decide +kernel
theorem test_scl10_38_wraps :
    gives 0x00260009 0x2#128 0x0#128 0x96769950B50D88F41314448000000000#128 = true := by decide +kernel
theorem test_scl10_negative :
    gives 0x00030009 0xFFFFFFFFFFFFFFFFFFFFFFFFFFFFFFFB#128 0x0#128 0xFFFFFFFFFFFFFFFFFFFFFFFFFFFFEC78#128 = true := by decide +kernel
theorem test_dadd_signs :
    gives 0x00000011 0x0001000000000000000000000000000F#128 0x800200000000000000000000000000E1#128 0x8002000000000000000000000000004B#128 = true := by decide +kernel
theorem test_dadd_capped :
    gives 0x00000011 0x00000000FFFFFFFFFFFFFFFFFFFFFFFF#128 0x00010000000000000000000000000005#128 0x000000001DD15B6C4CFCEF5890000000#128 = true := by decide +kernel
theorem test_dsub_capped :
    gives 0x00000012 0x80000000FFFFFFFFFFFFFFFFFFFFFFFF#128 0x1#128 0x800000001DD15B6C4CFCEF5890000000#128 = true := by decide +kernel
theorem test_dsub_zero :
    gives 0x00000012 0x000200000000000000000000000001F4#128 0x5#128 0x0#128 = true := by decide +kernel
theorem test_dmul_prereduced :
    gives 0x00000013 0x001C00006582A5360B14388541B65F28#128 0x001C000057D519ABEBECDE35857AED59#128 0x001900000046A39732C621B4D0ECA56B#128 = true := by decide +kernel
theorem test_dmul_capped :
    gives 0x00000013 0x00000000FFFFFFFFFFFFFFFFFFFFFFFF#128 0x00000000FFFFFFFFFFFFFFFFFFFFFFFF#128 0x000000009F01A21E85CACB6E40000001#128 = true := by decide +kernel
theorem test_drnd_tie_to_even :
    gives 0x00030015 0x00040000000000000000000000003039#128 0x0#128 0x000300000000000000000000000004D2#128 = true := by decide +kernel
theorem test_drnd_negative_places :
    gives 0x00FD0115 0x0003000000000000000000000001E240#128 0x0#128 0x7B#128 = true := by decide +kernel
theorem test_dnorm_strips :
    gives 0x00000016 0x8004000000000000000000000001E208#128 0x0#128 0x800200000000000000000000000004D2#128 = true := by decide +kernel
theorem test_dnorm_negative_zero :
    gives 0x00000016 0x80020000000000000000000000000000#128 0x0#128 0x0#128 = true := by decide +kernel
theorem test_dceil :
    gives 0x00000315 0x80010000000000000000000000000018#128 0x0#128 0x80000000000000000000000000000002#128 = true := by decide +kernel
theorem test_dfloor :
    gives 0x00000415 0x80010000000000000000000000000018#128 0x0#128 0x80000000000000000000000000000003#128 = true := by decide +kernel
theorem test_dtrunc :
    gives 0x00000215 0x8001000000000000000000000000001A#128 0x0#128 0x80000000000000000000000000000002#128 = true := by decide +kernel
theorem test_isqrt_negative :
    fails 0x00000008 0xFFFFFFFFFFFFFFFFFFFFFFFFFFFFFFFF#128 0x0#128 .domain = true := by decide +kernel
theorem test_ddiv_zero :
    fails 0x00000014 0x1#128 0x00020000000000000000000000000000#128 .overflow = true := by decide +kernel
theorem test_ddiv_bad_operand_first :
    fails 0x00000014 0x1#128 0x001D0000000000000000000000000000#128 .badOpnd = true := by decide +kernel
theorem test_illegal_before_bad_operand :
    fails 0x00000111 0x001D0000000000000000000000000001#128 0x0#128 .illegal = true := by decide +kernel
theorem test_reserved_operand_bits :
    fails 0x00000011 0x01000000000000000000000000000000#128 0x0#128 .badOpnd = true := by decide +kernel

/-! ## DDIV at a value of DIV_EXTRA_PRECISION (95_test_vectors.md section 2.8, column E = 28) -/

theorem test_ddiv_third :
    decDiv 28 ⟨false, 1, 0⟩ ⟨false, 3, 0⟩ = .complete 0x001C00000AC544CA14B700CB05555555#128 := by decide +kernel
theorem test_ddiv_negative_precision :
    decDiv 28 ⟨false, 2 ^ 96 - 1, 0⟩ ⟨false, 1, 28⟩ = .complete 0x00000000A18F07D736B90BE550000000#128 := by decide +kernel

/-! ## The decimal helpers (R25, R97, R110) -/

theorem test_decimalPlacesCount : decimalPlacesCount ⟨false, 420000, 4⟩ = 0 ∧ decimalPlacesCount ⟨true, 123400, 4⟩ = 2 ∧
    scaleUtility ⟨false, 420000, 4⟩ = 4 := by decide
theorem test_preReduce : preReduce ⟨false, 15, 28⟩ ⟨false, 5, 1⟩ = (⟨false, 2, 27⟩, ⟨false, 5, 1⟩) := by decide
theorem test_extract : roundingDigit 12345 2 = 4 ∧ removedRest 12345 2 = 5 ∧ truncatedMantissa 12345 2 = 123 := by decide

/-! ## Assembler and macros (R62 to R64; programs P1 and P2) -/

theorem test_assemble_drnd :
    assemble ['D', 'R', 'N', 'D', ' ', '2', ',', ' ', 'T', 'o', 'N', 'e', 'a', 'r', 'e', 's', 't'] = some 0x00020015 := by decide
theorem test_assemble_range : assemble ['S', 'C', 'L', '1', '0', ' ', '3', '9'] = none := by decide
theorem test_parse_image :
    parseValue ['d', '"', '1', '0', '0', '.', '0', '0', '"'] = some 0x00020000000000000000000000002710#128 ∧
    parseValue ['d', '"', '-', '0', '.', '0', '0', '"'] = some 0x80020000000000000000000000000000#128 ∧
    parseValue ['-', '5'] = some 0xFFFFFFFFFFFFFFFFFFFFFFFFFFFFFFFB#128 := by decide
theorem test_assemble_lda : assembleLine ['L', 'D', 'A', ' ', '1', '0'] = some (macroLda 10) := by rfl

/-! ## The port and reset (R28, R41 to R46, R140, R145; 95_test_vectors.md section 2.12) -/

/-- The state after reset with some moves to come. -/
def withInputs (l : List Input) : State := { State.reset with inputs := l }

theorem test_status_word : statusWord true .none = 0x01 ∧ statusWord false .overflow = 0x10 ∧ statusWord false .domain = 0x20 ∧
    statusWord false .illegal = 0x30 ∧ statusWord false .badOpnd = 0x40 := by decide
theorem test_read_of_cmd_is_zero : (step (withInputs [memRead 0x30])) = .next { State.reset with readLog := [0] } := by
  rw [step_memRead rfl (by decide) rfl (by decide)]; rfl
theorem test_write_of_r_is_ignored : (step (withInputs [memWrite 0x20 0x12345678])) = .next State.reset := by
  rw [step_memWrite rfl (by decide) rfl (by decide)]; rfl
theorem test_write_of_b_w2 : (step (withInputs [memWrite 0x18 0x12345678])) =
    .next { State.reset with b := 0x00000000123456780000000000000000#128 } := by
  rw [step_memWrite rfl (by decide) rfl (by decide)]; rfl
theorem test_cmd_write_issues : (step { State.reset with a := 7, b := 2, inputs := [macroIssue 6] }) =
    .next { State.reset with a := 7, b := 2, la := 7, lb := 2, lcmd := 6, busy := true } := by
  rw [macroIssue, step_memWrite rfl (by decide) rfl (by decide)]; rfl
theorem test_cmd_write_while_busy : (step { State.reset with busy := true, inputs := [macroIssue 6] }) = .fault .hazard := by
  rw [macroIssue, step_memWrite rfl (by decide) rfl (by decide)]; rfl
theorem test_half_word_access : (step (withInputs [.read (Config.coreBase + 0x02) .w32])) = .fault .busError := by
  rw [step_cons _ _ [] rfl]; simp [State.move, State.hostRead, State.readAt, acceptedAccess]; rfl
theorem test_below_the_window : windowOffset (Config.coreBase + 0x40) = none := by
  rw [windowOffset_eq_none]; omega
theorem test_window_bytes : State.windowByte { State.reset with a := 0x0F0E0D0C0B0A09080706050403020100#128 } 13 = 13 := by decide
theorem test_reset_abandons : step { State.reset with a := 1, busy := true, lcmd := 1, inputs := [.assertReset] } =
    .next { State.reset with inReset := true } := by rfl
theorem test_withFetchWord_runs : step ({ State.reset with a := 1, b := 2 }.withFetchWord 32 1) =
    .next { State.reset with a := 1, b := 2, la := 1, lb := 2, lcmd := 1, r := 3 } := by rfl

/-! ## The reference datapaths (R72, R73) -/

theorem test_heron_oscillation : heronSqrt 128 24 = 4 ∧ heronSqrt 128 15 = 3 ∧ heronSqrt 128 3 = 1 := by decide
theorem test_divider_min : dividerQuotient Quad.min 0xFFFFFFFFFFFFFFFFFFFFFFFFFFFFFFFF#128 = Quad.min := by decide +kernel

/-! ## Witnesses: for each statement with hypotheses, operands and states that meet them -/

/-- The word `w` in flight on the operands `x` and `y`, no move to come. -/
def latched (x y : Quad) (w : Word) : State := { State.reset with la := x, lb := y, lcmd := w, busy := true }

theorem witness_DecodeOfEncodeIsTheInstruction : (Instr.scl10 38).WellFormed ∧ (Instr.drnd (-128) .toZero).WellFormed ∧
    (-128 ≤ (127 : Int) ∧ (127 : Int) ≤ 127) := by decide
theorem witness_EncodeOfDecodeIsTheWord : decode 0x00260009 = .ok (.scl10 38) := by decide
theorem witness_IllegalWordsAreThoseOfR60 : decode (latched 0 0 0x00270009).lcmd = .error .powerOutOfTable := by decide
theorem witness_PseudoInstructionsAreDrnd : dec 0x80010000000000000000000000000018#128 = some ⟨true, 24, 1⟩ := by decide
theorem witness_NegIsTwosComplement : Completes .neg 1 0 0xFFFFFFFFFFFFFFFFFFFFFFFFFFFFFFFF#128 := by
  rw [completes_iff]; decide
theorem witness_AbsNegatesTheNegative : Quad.min.getLsbD 127 = true ∧ Quad.max.getLsbD 127 = false := by decide
theorem witness_DivTruncatesTowardZero : (1 : Quad) ≠ 0 ∧
    -(2 ^ 63) ≤ s128 0xFFFFFFFFFFFFFFFF8000000000000000#128 ∧ s128 0xFFFFFFFFFFFFFFFF8000000000000000#128 < 2 ^ 63 ∧
    -(2 ^ 63) ≤ s128 0x7FFFFFFFFFFFFFFF#128 ∧ s128 0x7FFFFFFFFFFFFFFF#128 < 2 ^ 63 ∧
    (s128 Quad.max).natAbs < (s128 Quad.min).natAbs := by decide
theorem witness_ModIsTheRemainderOfDiv : (2 : Quad) ≠ 0 ∧ Completes .div 7 2 3 := by
  rw [completes_iff]; decide +kernel
theorem witness_IsqrtIsTheFloorOfTheRoot : s128 0xFFFFFFFFFFFFFFFFFFFFFFFFFFFFFFFF#128 < 0 ∧ 0 ≤ s128 0 := by decide
theorem witness_HeronMethodGivesIsqrt : 2 ^ 127 - 1 < 2 ^ 127 ∧ 128 ≤ 128 := by norm_num
theorem witness_Scl10MultipliesByAPowerOfTen : 38 ≤ 38 ∧ (38 < 39 ∧ 39 < 256 ∧
    (latched 1 0 0x00270009).lcmd = BitVec.ofNat 32 (39 * 2 ^ 16 + 9)) ∧ (38 < 255 ∧ 255 < 256) := by decide
theorem witness_PowerTableHoldsThePowersOfTen : 0 ≤ 38 ∧ 38 ≤ 38 := by decide
theorem witness_ResetValues : 0 ≤ 38 ∧ 38 ≤ 38 := by decide
theorem witness_DecAndEncAreInverse : dec 0x801C0000FFFFFFFFFFFFFFFFFFFFFFFF#128 = some ⟨true, 2 ^ 96 - 1, 28⟩ ∧
    2 ^ 96 - 1 < 2 ^ 96 ∧ 28 ≤ 28 := by decide
theorem witness_NormalizeIsCanonicalAndKeepsTheValue : (⟨true, 0, 2⟩ : Dec).mant = 0 ∧ (⟨true, 100, 2⟩ : Dec).mant ≠ 0 ∧
    isDecimal .dnorm = true ∧ ∃ t, exec .dnorm (latched 1 0 0x16) = .next t ∧ t.err = .none :=
  ⟨rfl, by decide, rfl, _, rfl, by decide⟩
theorem witness_RhuRoundsHalfUpAndFitNarrows : 2 ^ 96 - 1 < 2 ^ 96 ∧ 2 ^ 96 ≤ 2 ^ 96 := by decide
theorem witness_CapTruncDropsLeadingDigits : 2 ^ 96 - 1 < 2 ^ 96 ∧ 2 ^ 96 ≤ 2 ^ 96 := by decide
theorem witness_PreReductionSplitsTheExcess :
    ((⟨false, 1, 14⟩ : Dec).scale + (⟨false, 1, 14⟩ : Dec).scale ≤ 28) ∧
    (28 < (⟨false, 1, 28⟩ : Dec).scale + (⟨false, 1, 1⟩ : Dec).scale ∧ (⟨false, 1, 1⟩ : Dec).scale ≤ (⟨false, 1, 28⟩ : Dec).scale) ∧
    (28 < (⟨false, 1, 1⟩ : Dec).scale + (⟨false, 1, 28⟩ : Dec).scale ∧ (⟨false, 1, 1⟩ : Dec).scale < (⟨false, 1, 28⟩ : Dec).scale) ∧
    (28 < (⟨false, 1, 15⟩ : Dec).scale + (⟨false, 1, 15⟩ : Dec).scale) := by decide
theorem witness_ScaleUpStopsBeforeTheWideIntegerLimit : (⟨false, 2 ^ 96 - 1, 0⟩ : Dec).mant < 2 ^ 96 ∧
    scaleUpExponent 28 ⟨false, 2 ^ 96 - 1, 0⟩ ⟨false, 1, 28⟩ = 9 ∧ (⟨false, 0, 0⟩ : Dec).mant = 0 ∧
    scaleUpExponent 28 ⟨false, 0, 0⟩ ⟨false, 1, 28⟩ = 56 := by decide +kernel
theorem witness_ExtractAndIncrementDecision : 1 ≤ 1 ∧ 1 ≤ 28 := by decide
theorem witness_DnormNormalizes : dec 0x000400000000000000000000000668A0#128 = some ⟨false, 420000, 4⟩ ∧
    dec 0x001D0000000000000000000000000000#128 = none ∧ dec 0x80020000000000000000000000000000#128 = some ⟨true, 0, 2⟩ ∧
    dec 0x64 = some ⟨false, 100, 0⟩ ∧ CanonicalImage 0x00010000000000000000000000000001#128 :=
  ⟨by decide, by decide, by decide, by decide, ⟨false, 1, 1⟩, by decide, by unfold Dec.Canonical; decide⟩
/-- 2.50 and −2.5, and a zero of scale 28. -/
theorem witness_DaddAlignsAddsAndFits : dec 0x000200000000000000000000000000FA#128 = some ⟨false, 250, 2⟩ ∧
    dec 0x80010000000000000000000000000019#128 = some ⟨true, 25, 1⟩ ∧
    (⟨false, 250, 2⟩ : Dec).value = -(⟨true, 25, 1⟩ : Dec).value ∧
    dec 0x01000000000000000000000000000000#128 = none ∧ dec 0x001C0000000000000000000000000000#128 = some ⟨false, 0, 28⟩ :=
  ⟨by decide, by decide, by norm_num [Dec.value], by decide, by decide⟩
theorem witness_DsubIsDaddOfTheNegated : dec 0x000200000000000000000000000000FA#128 = some ⟨false, 250, 2⟩ ∧
    dec 0x801C0000000000000000000000000000#128 = some ⟨true, 0, 28⟩ ∧ dec 0x000000010000000000000000#128 = some ⟨false, 2 ^ 64, 0⟩ ∧
    dec 0x00000001000000000000000000000000#128 = none := by decide
theorem witness_DmulFitsTheExactProduct : dec 0x001C0000000000000000000000000000#128 = some ⟨false, 0, 28⟩ ∧
    dec 0x001C0000000000000000000000000001#128 = some ⟨false, 1, 28⟩ ∧
    preReduce ⟨false, 0, 28⟩ ⟨false, 1, 28⟩ = (⟨false, 0, 14⟩, ⟨false, 0, 14⟩) ∧
    dec 0x001D0000000000000000000000000000#128 = none := by decide
/-- M96 + a zero of scale 28 (28 zeros to drop), M96 × 1.0 (one), and a DMUL that pre-reduction takes a zero digit off. -/
theorem witness_DecimalResultsAreExactWhenTheyFit : dec 0x00000000FFFFFFFFFFFFFFFFFFFFFFFF#128 = some ⟨false, 2 ^ 96 - 1, 0⟩ ∧
    dec 0x001C0000000000000000000000000000#128 = some ⟨false, 0, 28⟩ ∧ 2 ^ 96 - 1 < 2 ^ 96 ∧ 28 ≤ max 0 28 ∧
    (Dec.lifted ⟨false, 2 ^ 96 - 1, 0⟩ 28 + Dec.lifted ⟨false, 0, 28⟩ 28).natAbs = (2 ^ 96 - 1) * 10 ^ 28 ∧
    (Dec.lifted ⟨false, 2 ^ 96 - 1, 0⟩ 28 - Dec.lifted ⟨false, 0, 28⟩ 28).natAbs = (2 ^ 96 - 1) * 10 ^ 28 ∧
    (dec 0x0001000000000000000000000000000A#128 = some ⟨false, 10, 1⟩ ∧ 0 + 1 ≤ 28 ∧ 1 ≤ 0 + 1 ∧
      (2 ^ 96 - 1) * 10 = (2 ^ 96 - 1) * 10 ^ 1) ∧
    (dec 0x001C000000000000000000000000000A#128 = some ⟨false, 10, 28⟩ ∧ dec 0x00010000000000000000000000000003#128 = some ⟨false, 3, 1⟩ ∧
      preReduce ⟨false, 10, 28⟩ ⟨false, 3, 1⟩ = (⟨false, 1, 27⟩, ⟨false, 3, 1⟩) ∧
      (⟨false, 1, 27⟩ : Dec).value = (⟨false, 10, 28⟩ : Dec).value ∧ 0 ≤ 27 + 1 ∧ 1 * 3 = 3 * 10 ^ 0) :=
  ⟨by decide, by decide, by decide, by decide, by decide, by decide, ⟨by decide, by decide, by decide, by decide⟩, by decide, by decide,
    by decide, by norm_num [Dec.value], by decide, by decide⟩
theorem witness_DaddAndDmulCommute : Completes .dadd 1 2 3 ∧ Completes .dmul 3 2 6 ∧
    Raises .dadd 0x001D0000000000000000000000000000#128 1 .badOpnd ∧ Raises .dmul 1 0x001D0000000000000000000000000000#128 .badOpnd := by
  rw [completes_iff, completes_iff, raises_iff (by decide), raises_iff (by decide)]; decide +kernel
/-- t can be negative only with a scale of B above A's, non-negative otherwise; one operand pair for each. -/
theorem witness_DdivScalesDividesAndShrinks : dec 0x00000000FFFFFFFFFFFFFFFFFFFFFFFF#128 = some ⟨false, 2 ^ 96 - 1, 0⟩ ∧
    dec 0x001C0000000000000000000000000001#128 = some ⟨false, 1, 28⟩ ∧ dec 0 = some ⟨false, 0, 0⟩ ∧
    dec 0x001D0000000000000000000000000000#128 = none ∧
    (scaleUp Config.divExtraPrecision ⟨false, 2 ^ 96 - 1, 0⟩ ⟨false, 1, 28⟩).2 < 0 ∧
    0 ≤ (scaleUp Config.divExtraPrecision ⟨false, 1, 0⟩ ⟨false, 3, 0⟩).2 := by
  refine ⟨by decide, by decide, by decide, by decide, ?_, ?_⟩
  · have h : (2 ^ 96 - 1) * 10 ^ scaleUpExponent Config.divExtraPrecision ⟨false, 2 ^ 96 - 1, 0⟩ ⟨false, 1, 28⟩ ≤ Config.wideLimit :=
      scaleUpLoop_bound (by decide)
    have h' : scaleUpExponent Config.divExtraPrecision ⟨false, 2 ^ 96 - 1, 0⟩ ⟨false, 1, 28⟩ < 10 := by
      by_contra hc
      have h2 : 10 ^ 10 ≤ 10 ^ scaleUpExponent Config.divExtraPrecision ⟨false, 2 ^ 96 - 1, 0⟩ ⟨false, 1, 28⟩ :=
        Nat.pow_le_pow_right (by decide) (by omega)
      have h3 := Nat.mul_le_mul_left (2 ^ 96 - 1) h2
      simp only [Config.wideLimit] at h
      omega
    simp only [scaleUp]; omega
  · simp only [scaleUp]; omega
/-- 1 / 3 meets the last clause's premises at every DIV_EXTRA_PRECISION. -/
theorem witness_DdivIsTheTruncatedQuotient : dec 1 = some ⟨false, 1, 0⟩ ∧ dec 3 = some ⟨false, 3, 0⟩ ∧
    ∀ p, p = min (max 0 0 + Config.divExtraPrecision) 28 → 1 * 10 ^ (p + 0 - 0) ≤ 2 ^ 127 - 1 ∧
      ⌊|(⟨false, 1, 0⟩ : Dec).value / (⟨false, 3, 0⟩ : Dec).value| * 10 ^ p⌋ < 2 ^ 96 := by
  refine ⟨by decide, by decide, ?_⟩
  intro p hp
  have h : 10 ^ p ≤ 10 ^ 28 := Nat.pow_le_pow_right (by decide) (by omega)
  refine ⟨by simp only [Nat.add_zero, Nat.sub_zero, Nat.one_mul]; exact h.trans (by decide), ?_⟩
  have h' : (10 : ℚ) ^ p ≤ 10 ^ 28 := by exact_mod_cast h
  rw [Int.floor_lt]
  have : |(⟨false, 1, 0⟩ : Dec).value / (⟨false, 3, 0⟩ : Dec).value| = 1 / 3 := by
    norm_num [Dec.value]
  rw [this]; push_cast
  calc (1 : ℚ) / 3 * 10 ^ p ≤ 1 / 3 * 10 ^ 28 := by gcongr
    _ < 2 ^ 96 := by norm_num
theorem witness_DrndRoundsTheExactValue : dec 0x00010000000000000000000000000019#128 = some ⟨false, 25, 1⟩ ∧
    dec 0x7F000000000000000000000000000000#128 = none := by decide
/-- One pair of latches for each check of R124, in its order. -/
theorem witness_ErrorChecksInOrder :
    decode (latched 0 0 0).lcmd = .error .opcode ∧
    (decode (latched 0x001D0000000000000000000000000000#128 0 0x14).lcmd = .ok .ddiv ∧
      dec (latched 0x001D0000000000000000000000000000#128 0 0x14).la = none) ∧
    (decode (latched 1 0x001D0000000000000000000000000000#128 0x11).lcmd = .ok .dadd ∧
      dec (latched 1 0x001D0000000000000000000000000000#128 0x11).lb = none ∧ readsB .dadd = true) ∧
    (decode (latched 1 0 6).lcmd = .ok .div ∧ decode (latched 1 0 7).lcmd = .ok .mod ∧ (latched 1 0 6).lb = 0) ∧
    (decode (latched 1 0 0x14).lcmd = .ok .ddiv ∧ dec (latched 1 0 0x14).la = some ⟨false, 1, 0⟩ ∧
      dec (latched 1 0 0x14).lb = some ⟨false, 0, 0⟩) ∧
    (decode (latched Quad.min 0 8).lcmd = .ok .isqrt ∧ s128 (latched Quad.min 0 8).la < 0) ∧
    (decode (latched 7 2 6).lcmd = .ok .div ∧ (latched 7 2 6).lb ≠ 0) := by decide
theorem witness_ErrorsWriteOnlyErrAndBusy : ∃ t, (latched 1 0 6).perform = .next t ∧ t.err ≠ .none := ⟨_, rfl, by decide⟩
theorem witness_EveryCommandEndsAndKeepsTheRest : ∃ t, exec .mod (latched 1 0 7) = .next t ∧ t.err ≠ .none := ⟨_, rfl, by decide⟩
theorem witness_DomainOnlyFromNegativeIsqrt : ∃ t, exec .isqrt (latched Quad.min 0 8) = .next t ∧ t.err = .domain :=
  ⟨_, rfl, by decide⟩
theorem witness_OverflowAndBadOperandCauses : Instr.div.WellFormed ∧
    (∃ t, exec .div (latched 1 0 6) = .next t ∧ t.err = .overflow) ∧
    ∃ t, exec .dadd (latched 0x001D0000000000000000000000000000#128 0 0x11) = .next t ∧ t.err = .badOpnd :=
  ⟨rfl, ⟨_, rfl, by decide⟩, _, rfl, by decide⟩
/-- Two states with the same word and latches, and different registers otherwise; NEG ignores B. -/
theorem witness_OutputsDependOnWordAndLatchesOnly : ∃ s s' t t' : State, s ≠ s' ∧ s.lcmd = s'.lcmd ∧ s.la = s'.la ∧ s.lb = s'.lb ∧
    s.perform = .next t ∧ s'.perform = .next t' ∧ readsB .neg = false ∧
    ∃ u u', exec .neg s = .next u ∧ exec .neg s' = .next u' :=
  ⟨latched 1 2 1, { latched 1 2 1 with r := 9, a := 4 }, _, _, by decide, rfl, rfl, rfl, perform_eq _, perform_eq _, rfl, _, _, rfl, rfl⟩
theorem witness_StepRunsTheDecodedCommand : ∃ s : State, s.inReset = false ∧ s.busy = true ∧ decode s.lcmd = .ok .add ∧
    s.inputs = .complete :: [] ∧ decode 0x00000001 = .ok .add ∧ (latched 1 2 1).inputs = [] :=
  ⟨inFlight 1 1 2, rfl, rfl, by decide, rfl, by decide, rfl⟩
theorem witness_IssueLatchesAndCompletionPerforms :
    ((withInputs [macroIssue 1]).inReset = false ∧ (withInputs [macroIssue 1]).busy = false ∧
      (withInputs [macroIssue 1]).inputs = macroIssue 1 :: []) ∧
    { latched 0 0 0 with inputs := [macroIssue 1] }.busy = true ∧
    ((inFlight 1 1 2).inReset = false ∧ (inFlight 1 1 2).busy = true ∧ (inFlight 1 1 2).inputs = .complete :: []) ∧
    (0x1C < 0x20 ∧ 0x1C % 4 = 0 ∧ (withInputs [memWrite 0x1C 1]).inputs = memWrite 0x1C 1 :: []) ∧
    (withInputs [memRead 0x30]).inputs = memRead 0x30 :: [] :=
  ⟨⟨rfl, rfl, rfl⟩, rfl, ⟨rfl, rfl, rfl⟩, ⟨by decide, by decide, rfl⟩, rfl⟩
theorem witness_CmdWriteWhileBusyIsAHazard : ∃ s : State, s.inReset = false ∧ s.busy = true ∧ s.inputs = macroIssue 0 :: [] :=
  ⟨{ latched 0 0 0 with inputs := [macroIssue 0] }, rfl, rfl, rfl⟩
theorem witness_OtherWidthsAndMisalignedAreBusErrors : 63 < 64 ∧ (Width.w32 ≠ .w32 ∨ 63 % 4 ≠ 0) ∧ (Width.w8 ≠ .w32 ∨ 0 % 4 ≠ 0) ∧
    (withInputs [.read (Config.coreBase + 63) .w32]).inputs = .read (Config.coreBase + 63) .w32 :: [] ∧
    (withInputs [.write (Config.coreBase + 0) .w8 0]).inputs = .write (Config.coreBase + 0) .w8 0 :: [] :=
  ⟨by decide, by decide, by decide, rfl, rfl⟩
theorem witness_RegisterMapReadsAndIgnoredWrites :
    (∀ off, (withInputs [memRead off]).inputs = memRead off :: [] ∧ (withInputs [memWrite off 1]).inputs = memWrite off 1 :: []) ∧
    (0x00 = 4 * (0 : Fin 4).val ∧ 0x0C = 4 * (3 : Fin 4).val) ∧ (0x10 = 0x10 + 4 * (0 : Fin 4).val ∧ 0x1C = 0x10 + 4 * (3 : Fin 4).val) ∧
    (0x20 = 0x20 + 4 * (0 : Fin 4).val ∧ 0x2C = 0x20 + 4 * (3 : Fin 4).val) ∧
    0x20 ∈ [0x20, 0x24, 0x28, 0x2C, 0x34, 0x38, 0x3C] ∧ 0x3C ∈ [0x20, 0x24, 0x28, 0x2C, 0x34, 0x38, 0x3C] :=
  ⟨fun _ => ⟨rfl, rfl⟩, by decide, by decide, by decide, by decide, by decide⟩
theorem witness_OperandWritesReplaceOneWord : (withInputs [memWrite (4 * (3 : Fin 4).val) 1]).inputs = memWrite (4 * (3 : Fin 4).val) 1 :: [] ∧
    (withInputs [memWrite (0x10 + 4 * (3 : Fin 4).val) 1]).inputs = memWrite (0x10 + 4 * (3 : Fin 4).val) 1 :: [] ∧
    (0x1C < 0x20 ∧ 0x1C % 4 = 0 ∧ ∃ t, step (withInputs [memWrite 0x1C 1, memWrite 0x1C 1]) = .next t) ∧
    (0x3C < 0x40 ∧ 0x3C % 4 = 0 ∧ (withInputs [memRead 0x3C, memRead 0x3C]).inputs = memRead 0x3C :: memRead 0x3C :: []) :=
  ⟨rfl, rfl, ⟨by decide, by decide, _, (step_memWrite rfl (by decide) rfl (by decide)).trans rfl⟩, by decide, by decide, rfl⟩
theorem witness_WindowIsLittleEndian : 15 < 16 ∧ 60 < 64 ∧ 60 % 4 = 0 ∧ 3 < 4 := by decide
/-- A move for each answer of `allows`; in reset a misaligned read and a CMD write. -/
theorem witness_StepFaultsOnlyOnForbiddenAccesses : State.reset.inputs = [] ∧ State.reset.allows (memRead 0x34) = true ∧
    State.allows (latched 1 2 1) (macroIssue 1) = false ∧ State.reset.allows (.read (Config.coreBase + 0x40) .w32) = false ∧
    State.reset.allows (.read (Config.coreBase + 0x02) .w32) = false ∧
    State.allows { State.reset with inReset := true } (.read (Config.coreBase + 0x02) .w32) = true ∧
    State.allows { State.reset with inReset := true } (macroIssue 1) = true := by
  refine ⟨rfl, ?_, ?_, ?_, ?_, ?_, ?_⟩
  · simp [State.allows, memRead, acceptedAccess]
  · simp [State.allows, macroIssue, memWrite, acceptedAccess, windowReg, latched, State.reset]
  · have : windowOffset (Config.coreBase + 0x40) = none := test_below_the_window
    simp [State.allows, this]
  · simp [State.allows, acceptedAccess, State.reset]
  · simp [State.allows]
  · simp [State.allows, macroIssue, memWrite]
/-- The state in reset, with some moves to come. -/
def resetWith (l : List Input) : State := { State.reset with inReset := true, inputs := l }

theorem witness_ResetClearsAndAbandons :
    (inFlight 1 1 2).assertReset.inReset = true ∧ { latched 1 2 1 with inputs := [.assertReset] }.inputs = .assertReset :: [] ∧
    ((resetWith [.releaseReset]).inReset = true ∧ (resetWith [.releaseReset]).inputs = .releaseReset :: []) ∧
    ((resetWith [.complete]).inReset = true ∧ (resetWith [.complete]).inputs = .complete :: []) ∧
    ((resetWith []).inReset = true ∧ (resetWith []).inputs = []) ∧
    ((resetWith [.write (Config.coreBase + 63) .w8 0]).inReset = true ∧ 63 < 64 ∧
      (resetWith [.write (Config.coreBase + 63) .w8 0]).inputs = .write (Config.coreBase + 63) .w8 0 :: []) ∧
    ((resetWith [macroIssue 1]).inReset = true ∧ (resetWith [macroIssue 1]).inputs = .write (Config.coreBase + 0x30) .w32 1 :: []) ∧
    ((resetWith [.read (Config.coreBase + 0) .w64]).inReset = true ∧
      (resetWith [.read (Config.coreBase + 0) .w64]).inputs = .read (Config.coreBase + 0) .w64 :: []) :=
  ⟨rfl, rfl, ⟨rfl, rfl⟩, ⟨rfl, rfl⟩, ⟨rfl, rfl⟩, ⟨rfl, by decide, rfl⟩, ⟨rfl, rfl⟩, rfl, rfl⟩
/-- ADD of 1 and 2 in flight, and after its completion: both have the invariant. -/
theorem witness_EveryStepKeepsTheInvariant : (inFlight 1 1 2).Inv ∧ ∃ t, step (inFlight 1 1 2) = .next t ∧ t.busy = false ∧ t.Inv := by
  refine ⟨⟨by simp [inFlight, State.reset], by simp [inFlight]⟩, _, step_complete rfl rfl rfl, by decide, ?_⟩
  exact ⟨by intro h; exact absurd h (by decide), fun _ => .inr (resultsCurrent_finish { inFlight 1 1 2 with inputs := [] })⟩
theorem witness_BusyZeroMeansResultsAreCurrent : (withInputs [memRead 0x34]).Inv ∧ (withInputs [memRead 0x34]).inReset = false ∧
    ∃ t, step (withInputs [memRead 0x34]) = .next t :=
  ⟨⟨by simp [withInputs, State.reset], fun _ => .inl ⟨rfl, rfl, rfl, rfl, rfl⟩⟩, rfl, _, step_memRead rfl (by decide) rfl (by decide)⟩
theorem witness_LatencyDoesNotChangeTheResult : (latched 1 2 1).inReset = false ∧ (latched 1 2 1).busy = true ∧
    ∀ e ∈ [memRead 0x20, memWrite 0x00 9], e.harmless = true := by
  refine ⟨rfl, rfl, ?_⟩
  have h (off : Nat) (h : off < 64) := windowOffset_base off h
  intro e he
  simp only [List.mem_cons, List.not_mem_nil, or_false] at he
  rcases he with rfl | rfl
  · simp only [Input.harmless, memRead, h 0x20 (by decide)]; rfl
  · simp only [Input.harmless, memWrite, h 0x00 (by decide)]; rfl
/-- A write of A, a write of B, an issue, a completion, a failing completion and a reset each change a register. -/
theorem witness_RegistersChangeOnlyByTheirAgents :
    (∃ t, step (withInputs [memWrite 0x0C 1]) = .next t ∧ t.a ≠ (withInputs [memWrite 0x0C 1]).a) ∧
    (∃ t, step (withInputs [memWrite 0x10 1]) = .next t ∧ t.b ≠ (withInputs [memWrite 0x10 1]).b) ∧
    (∃ t, step (withInputs [macroIssue 1]) = .next t ∧ t.lcmd ≠ (withInputs [macroIssue 1]).lcmd ∧
      t.busy ≠ (withInputs [macroIssue 1]).busy) ∧
    (∃ t, step (inFlight 1 1 2) = .next t ∧ t.r ≠ (inFlight 1 1 2).r ∧ t.busy ≠ (inFlight 1 1 2).busy ∧ t.err ≠ (inFlight 1 1 2).err) ∧
    (∃ t, step (latched 1 0 6) = .next t ∧ t.err ≠ (latched 1 0 6).err) ∧
    ∃ t, step { latched 1 2 1 with a := 1, inputs := [.assertReset] } = .next t ∧ t.a ≠ 1 ∧ t.la ≠ 1 ∧ t.busy ≠ true :=
  ⟨⟨_, (step_memWrite rfl (by decide) rfl (by decide)).trans rfl, by decide⟩,
    ⟨_, (step_memWrite rfl (by decide) rfl (by decide)).trans rfl, by decide⟩,
    ⟨_, (step_memWrite rfl (by decide) rfl (by decide)).trans rfl, by decide, by decide⟩,
    ⟨_, rfl, by decide, by decide, by decide⟩, ⟨_, rfl, by decide⟩, _, rfl, by decide, by decide, by decide⟩
/-- A command in flight, and every place of the completion among the four reads. -/
theorem witness_FourReadsCanMixTwoResults : (latched 1 2 1).inReset = false ∧ (latched 1 2 1).busy = true ∧ 0 ≤ 4 ∧ 4 ≤ 4 := by decide
theorem witness_DividerTiersGiveTheQuotient : (1 : Quad) ≠ 0 ∧ (2 ^ 128 - 1 < 2 ^ 128 ∧ 0 < 2 ^ 64 - 1 ∧ 2 ^ 64 - 1 < 2 ^ 64) := by decide
theorem witness_SixWordsHoldEveryIntermediate : (⟨false, 2 ^ 96 - 1, 0⟩ : Dec).mant < 2 ^ 96 ∧ (⟨false, 2 ^ 96 - 1, 28⟩ : Dec).scale ≤ 28 ∧
    2 ^ 192 - 1 < 2 ^ 192 ∧ 2 ^ 192 - 1 + 0 < 2 ^ 192 ∧ 0 ≤ 2 ^ 192 - 1 := by decide
/-- The largest dividend over a divisor of scale 28: the scale-up stops at 10^9, the precision is −19 whatever DIV_EXTRA_PRECISION is. -/
theorem witness_SixWordsHoldEveryIntermediate_negativePrecision :
    scaleUp Config.divExtraPrecision ⟨false, 2 ^ 96 - 1, 0⟩ ⟨false, 1, 28⟩ = ((2 ^ 96 - 1) * 10 ^ 9, -19) := by
  have h : targetPrecision Config.divExtraPrecision 0 28 = 28 := by simp [targetPrecision, Config.maxScale]
  simp only [scaleUp, scaleUpExponent, h]; decide

end Sys2Proof.Tests
end

/-! SUPPORT. The family 00_scope.md: what a command's outputs depend on (R12, R22), and the sizes of the decimal units' intermediates
with the word-by-word adder (R2, R93). -/

namespace Sys2Proof.Machine

/-! ## What a command's outputs depend on (R12, R22) -/

/-- An illegal word raises ILLEGAL and a legal one no NONE. -/
theorem wordResult_raise_ne_none {w : Word} {a b : Quad} {e : ErrCode} (h : wordResult w a b = .raise e) : e ≠ .none := by
  unfold wordResult at h
  split at h
  · cases h; decide
  · exact result_raise_ne_none h

/-- What one result leaves in ERR, and in R when ERR is NONE, is the same whatever state it is finished in. -/
theorem finish_outputs_eq (s s' : State) {res : CmdResult} (hres : ∀ e, res = .raise e → e ≠ .none) :
    (s.finish res).err = (s'.finish res).err ∧ ((s.finish res).err = .none → (s.finish res).r = (s'.finish res).r) := by
  cases res with
  | complete v => exact ⟨rfl, fun _ => rfl⟩
  | raise e => exact ⟨rfl, fun h => absurd h (hres e rfl)⟩

/-- The result of a command with one operand is a function of A (R22). -/
theorem result_eq_of_not_readsB {i : Instr} (h : readsB i = false) (a b b' : Quad) :
    Instr.result i a b = Instr.result i a b' := by
  cases i <;> cases h <;> rfl

/-- Settles O39: `perform` and `exec` finish the state with a result made of the word and the latches, or of A alone. -/
theorem outputsDependOnWordAndLatchesOnly : Obligations.OutputsDependOnWordAndLatchesOnly := by
  constructor
  · intro s s' t t' hw ha hb ht ht'
    rw [perform_eq] at ht ht'
    cases ht; cases ht'
    rw [← hw, ← ha, ← hb]
    exact finish_outputs_eq s s' fun _ => wordResult_raise_ne_none
  · intro i s s' t t' hB ha ht ht'
    rw [exec_eq] at ht ht'
    cases ht; cases ht'
    rw [← ha, result_eq_of_not_readsB hB s.la s'.lb s.lb]
    exact finish_outputs_eq s s' fun _ => result_raise_ne_none

/-! ## Sizes of the decimal units' intermediates (R92, R97 to R100) -/

/-- A mantissa lifted by at most the largest scale stays below 2^190. -/
theorem mant_mul_pow_lt {m k : Nat} (hm : m < 2 ^ 96) (hk : k ≤ 28) : m * 10 ^ k < 2 ^ 190 :=
  calc m * 10 ^ k ≤ 2 ^ 96 * 10 ^ 28 := Nat.mul_le_mul hm.le (Nat.pow_le_pow_right (by norm_num) hk)
    _ < 2 ^ 190 := by norm_num

theorem align_lt {x y : Dec} (hx : x.mant < 2 ^ 96) (hy : y.mant < 2 ^ 96) (hsx : x.scale ≤ 28) (hsy : y.scale ≤ 28) :
    (align x y).1 < 2 ^ 190 ∧ (align x y).2.1 < 2 ^ 190 := by
  rw [align_eq hsx hsy]
  exact ⟨mant_mul_pow_lt hx (by omega), mant_mul_pow_lt hy (by omega)⟩

theorem preReduce_product_lt {x y : Dec} (hx : x.mant < 2 ^ 96) (hy : y.mant < 2 ^ 96) :
    (preReduce x y).1.mant * (preReduce x y).2.mant < 2 ^ 192 :=
  calc rhu x.mant _ * rhu y.mant _ < 2 ^ 96 * 2 ^ 96 := Nat.mul_lt_mul'' ((rhu_le _ _).trans_lt hx) ((rhu_le _ _).trans_lt hy)
    _ = 2 ^ 192 := by norm_num

theorem scaleUp_dividend_le (extra : Nat) {x : Dec} (y : Dec) (hx : x.mant < 2 ^ 96) :
    x.mant * 10 ^ scaleUpExponent extra x y ≤ 2 ^ 127 - 1 :=
  scaleUpLoop_bound (j := 0) (by simp only [Config.wideLimit]; omega)

/-- The multiple that the scale-up last tries is ten times the dividend it keeps. -/
theorem scaleUp_lastTried_lt (extra : Nat) {x : Dec} (y : Dec) (hx : x.mant < 2 ^ 96) :
    x.mant * 10 ^ (scaleUpExponent extra x y + 1) < 2 ^ 192 := by
  have h := scaleUp_dividend_le extra y hx
  rw [pow_succ, ← mul_assoc]
  omega

/-- A negative precision −k means that the scale-up took j of the scales' difference j + k, so that the quotient times 10^k is at most the
dividend lifted by that difference (R100). -/
theorem scaleUp_negativePrecision {extra : Nat} {x y : Dec} {n : Nat} {t : Int} (hx : x.mant < 2 ^ 96) (hsy : y.scale ≤ 28)
    (h : scaleUp extra x y = (n, t)) (ht : t < 0) : (-t).toNat ≤ 38 ∧ n / y.mant * 10 ^ (-t).toNat < 2 ^ 192 := by
  obtain ⟨rfl, rfl⟩ := Prod.mk.inj h
  generalize scaleUpExponent extra x y = j at ht ⊢
  obtain ⟨k, hk⟩ := Int.eq_ofNat_of_zero_le (a := -(x.scale + j - y.scale : Int)) (by omega)
  rw [hk, Int.toNat_natCast]
  refine ⟨by omega, ?_⟩
  calc x.mant * 10 ^ j / y.mant * 10 ^ k ≤ x.mant * 10 ^ j * 10 ^ k := Nat.mul_le_mul_right _ (Nat.div_le_self _ _)
    _ = x.mant * 10 ^ (j + k) := by rw [pow_add, mul_assoc]
    _ < 2 ^ 192 := (mant_mul_pow_lt hx (by omega)).trans (by norm_num)

/-- The doubled remainder that RHU compares (R89). -/
theorem double_mod_pow_lt (m : Nat) {n : Nat} (hn : n ≤ 28) : 2 * (m % 10 ^ n) < 2 ^ 192 := by
  have hr : m % 10 ^ n < 10 ^ n := Nat.mod_lt _ (by positivity)
  have hp : 10 ^ n ≤ 10 ^ 28 := Nat.pow_le_pow_right (by norm_num) hn
  omega

theorem shrinkQuotient_mant_le (t q : Nat) : (shrinkQuotient t q).1 ≤ q := by
  rw [shrinkQuotient_div]
  exact Nat.div_le_self _ _

/-! ## Magnitudes as words, and the word-by-word adder/subtractor (R2, R93) -/

/-- One word more holds 2^32 times as many magnitudes. -/
theorem two_pow_succ_words (n : Nat) : 2 ^ (32 * (n + 1)) = 2 ^ 32 * 2 ^ (32 * n) := by
  rw [← pow_add, Nat.mul_succ, Nat.add_comm]

@[simp] theorem length_magnitudeWords (n m : Nat) : (magnitudeWords n m).length = n := by
  induction n generalizing m with
  | zero => rfl
  | succ n ih => simp [magnitudeWords, ih]

theorem wordsMagnitude_magnitudeWords {n m : Nat} (hm : m < 2 ^ (32 * n)) : wordsMagnitude (magnitudeWords n m) = m := by
  induction n generalizing m with
  | zero => simp only [magnitudeWords, wordsMagnitude]; omega
  | succ n ih =>
    have hhi : m / 2 ^ 32 < 2 ^ (32 * n) := Nat.div_lt_of_lt_mul (two_pow_succ_words n ▸ hm)
    simp only [magnitudeWords, wordsMagnitude, ih hhi, BitVec.toNat_ofNat]
    exact Nat.mod_add_div m (2 ^ 32)

/-- Word-by-word addition is exact where the sum fits the words: each word keeps its sum modulo 2^32 and carries the rest. -/
theorem wordsMagnitude_addWords {xs ys : List Word} {c : Bool} (hlen : xs.length = ys.length)
    (hfit : wordsMagnitude xs + wordsMagnitude ys + c.toNat < 2 ^ (32 * xs.length)) :
    wordsMagnitude (addWords xs ys c) = wordsMagnitude xs + wordsMagnitude ys + c.toNat := by
  induction xs generalizing ys c with
  | nil =>
    cases ys with
    | nil => simp only [addWords, wordsMagnitude, List.length_nil] at hfit ⊢; omega
    | cons y ys => cases hlen
  | cons x xs ih =>
    cases ys with
    | nil => cases hlen
    | cons y ys =>
      have hx := x.isLt
      have hy := y.isLt
      have hc := Bool.toNat_le c
      simp only [wordsMagnitude, List.length_cons, two_pow_succ_words] at hfit
      simp only [addWords, wordsMagnitude, BitVec.toNat_ofNat]
      by_cases hcarry : 2 ^ 32 ≤ x.toNat + y.toNat + c.toNat
      · rw [decide_eq_true hcarry, ih (Nat.succ.inj hlen) (by rw [Bool.toNat_true]; omega), Bool.toNat_true]
        omega
      · rw [decide_eq_false hcarry, ih (Nat.succ.inj hlen) (by rw [Bool.toNat_false]; omega), Bool.toNat_false]
        omega

/-- Word-by-word subtraction is exact where the difference is not negative: a word that is too small borrows 2^32 from those above. -/
theorem wordsMagnitude_subWords {xs ys : List Word} {c : Bool} (hlen : xs.length = ys.length)
    (hle : wordsMagnitude ys + c.toNat ≤ wordsMagnitude xs) :
    wordsMagnitude (subWords xs ys c) = wordsMagnitude xs - wordsMagnitude ys - c.toNat := by
  induction xs generalizing ys c with
  | nil =>
    cases ys with
    | nil => simp [subWords, wordsMagnitude]
    | cons y ys => cases hlen
  | cons x xs ih =>
    cases ys with
    | nil => cases hlen
    | cons y ys =>
      have hx := x.isLt
      have hy := y.isLt
      have hc := Bool.toNat_le c
      simp only [wordsMagnitude] at hle
      simp only [subWords, wordsMagnitude, BitVec.toNat_ofNat]
      by_cases hborrow : x.toNat < y.toNat + c.toNat
      · rw [decide_eq_true hborrow, ih (Nat.succ.inj hlen) (by rw [Bool.toNat_true]; omega), Bool.toNat_true]
        omega
      · rw [decide_eq_false hborrow, ih (Nat.succ.inj hlen) (by rw [Bool.toNat_false]; omega), Bool.toNat_false]
        omega

/-- Settles O59, from the bounds of each unit and the exactness of the word-by-word adder/subtractor on six words. -/
theorem sixWordsHoldEveryIntermediate : Obligations.SixWordsHoldEveryIntermediate := by
  have hwords : ∀ m : Nat, m < 2 ^ 192 → wordsMagnitude (magnitudeWords 6 m) = m := fun _ =>
    wordsMagnitude_magnitudeWords (n := 6)
  refine ⟨fun x y hx hy hsx hsy => ?_, fun m n => ?_, decNormalize_mant_le, hwords, fun m n hm hn => ⟨fun hsum => ?_, fun hle => ?_⟩⟩
  · obtain ⟨hxa, hxb⟩ := align_lt hx hy hsx hsy
    exact ⟨hxa, hxb, by omega, preReduce_product_lt hx hy, scaleUp_dividend_le _ y hx, scaleUp_lastTried_lt _ y hx,
      fun n t => scaleUp_negativePrecision hx hsy⟩
  · exact ⟨rhu_le m n, double_mod_pow_lt m, fit_mant_le n m, capTrunc_le m, shrinkQuotient_mant_le n m⟩
  · rw [wordsMagnitude_addWords (by simp) (by simpa [hwords m hm, hwords n hn] using hsum), hwords m hm, hwords n hn]; rfl
  · rw [wordsMagnitude_subWords (by simp) (by simpa [hwords m hm, hwords n hn] using hle), hwords m hm, hwords n hn]; rfl

end Sys2Proof.Machine

/-! SUPPORT. The family 10_state.md: the registers after reset and the power-of-ten table (R28, R31, R33), the frame of a command (R20 to
R23, R150), issue and completion as steps (R27), which agent changes which register (R134), and the invariant of the machine (R49, R140). -/

namespace Sys2Proof.Machine

/-! ## The invariant (R28, R49, R140) -/

/-- Settles O51. -/
theorem invariantHoldsAtReset : Obligations.InvariantHoldsAtReset :=
  ⟨fun h => (nomatch h), fun _ => .inl ⟨rfl, rfl, rfl, rfl, rfl⟩⟩

/-- A completion reads neither the operand registers nor the model's own fields. -/
theorem finish_frame (s : State) (res : CmdResult) (x y : Quad) (rest : List Input) (ws : List Word) (n : Nat) :
    State.finish { s with a := x, b := y, inputs := rest, readLog := ws, freeCount := n } res =
      { s.finish res with a := x, b := y, inputs := rest, readLog := ws, freeCount := n } := by
  cases res <;> rfl

theorem State.ResultsCurrent.frame {s : State} (h : s.ResultsCurrent) (x y : Quad) (rest : List Input) (ws : List Word) (n : Nat) :
    State.ResultsCurrent { s with a := x, b := y, inputs := rest, readLog := ws, freeCount := n } := by
  rw [resultsCurrent_iff] at h ⊢
  rw [finish_frame, h]

/-- A move that writes neither latches nor results keeps the invariant, and outside reset it may write A and B. -/
theorem State.Inv.frame {s : State} (h : s.Inv) {x y : Quad} (hab : s.inReset = false ∨ (x = s.a ∧ y = s.b)) (rest : List Input)
    (ws : List Word) (n : Nat) : State.Inv { s with a := x, b := y, inputs := rest, readLog := ws, freeCount := n } := by
  obtain ⟨hreset, hidle⟩ := h
  refine ⟨fun hr => ?_, fun hb => (hidle hb).imp id fun hcur => hcur.frame x y rest ws n⟩
  rcases hab with hout | ⟨rfl, rfl⟩
  · exact absurd hr (by simp [hout])
  · exact hreset hr

/-- The invariant, where reset clears every register, whatever the level of the reset input. -/
theorem inv_clearRegisters (s : State) (level : Bool) : State.Inv { s.clearRegisters with inReset := level } :=
  ⟨fun _ => ⟨rfl, rfl, rfl, rfl, rfl, rfl, rfl, rfl⟩, fun _ => .inl ⟨rfl, rfl, rfl, rfl, rfl⟩⟩

/-- An issue leaves nothing to say: BUSY is 1, outside reset. -/
theorem inv_issue {s : State} (hr : s.inReset = false) (w : Word) : (s.issue w).Inv :=
  ⟨fun h => absurd h (by simp [hr]), fun h => (nomatch h)⟩

theorem inv_finish {s : State} (hr : s.inReset = false) : (s.finish (wordResult s.lcmd s.la s.lb)).Inv :=
  ⟨fun h => absurd h (by simp [hr]), fun _ => .inr (resultsCurrent_finish s)⟩

/-- Settles O52, by what a step can be: it writes no latch and no result, or it issues, completes or resets. -/
theorem everyStepKeepsTheInvariant : Obligations.EveryStepKeepsTheInvariant := by
  intro s t hinv hstep
  rcases step_cases hstep with rfl | ⟨-, w, rfl⟩ | ⟨-, w, rfl⟩ | ⟨hr, x, rfl⟩ | ⟨hr, x, rfl⟩ | ⟨hr, -, w, rfl⟩ |
    ⟨hr, -, rfl⟩ | rfl | ⟨-, rfl⟩
  · exact hinv.frame (.inr ⟨rfl, rfl⟩) ..
  · exact hinv.frame (.inr ⟨rfl, rfl⟩) ..
  · exact hinv.frame (.inr ⟨rfl, rfl⟩) ..
  · exact hinv.frame (.inl hr) ..
  · exact hinv.frame (.inl hr) ..
  · exact inv_issue (s := { s with inputs := s.inputs.tail }) hr w
  · exact inv_finish (s := { s with inputs := s.inputs.tail }) hr
  · exact inv_clearRegisters _ true
  · exact inv_clearRegisters _ false

/-! ## Values after reset, the ROM and STATUS (R28, R31, R33) -/

/-- Settles O49. -/
theorem resetValues : Obligations.ResetValues :=
  ⟨rfl, rfl, rfl, rfl, rfl, rfl, rfl, rfl, rfl, fun _ => p10_eq⟩

/-- Settles O16: the table is a list of 39 entries, and no power of ten up to 10^38 wraps. -/
theorem powerTableHoldsThePowersOfTen : Obligations.PowerTableHoldsThePowersOfTen := by
  refine ⟨p10Rom_length, fun k hk => ⟨?_, p10_eq hk, p10_toNat hk⟩, by norm_num, by norm_num⟩
  have hlt : k < p10Rom.length := by rw [p10Rom_length]; omega
  rw [p10, List.getD_eq_getElem _ _ hlt, List.getElem?_eq_getElem hlt]

/-- Settles O47, on each of the ten words that BUSY and ERR make. -/
theorem statusWordLayout : Obligations.StatusWordLayout := by
  refine ⟨fun busy err => ?_, by decide, by decide, by decide, by decide⟩
  cases busy <;> cases err <;> decide

/-! ## The frame of a command (R20 to R23, R150) -/

/-- Settles O38: a command finishes the state with its result, which completes or raises. -/
theorem everyCommandEndsAndKeepsTheRest : Obligations.EveryCommandEndsAndKeepsTheRest := by
  intro i s
  refine ⟨_, exec_eq i s, ?_⟩
  cases Instr.result i s.la s.lb with
  | complete v => exact ⟨rfl, fun herr => absurd rfl herr⟩
  | raise e => exact ⟨rfl, fun _ => rfl⟩

/-! ## Issue and completion as steps (R27) -/

theorem perform_of_decode {s : State} {i : Instr} (h : decode s.lcmd = .ok i) : s.perform = exec i s := by
  simp only [State.perform, h]

theorem step_complete_eq_perform {s : State} {rest : List Input} (hin : s.inputs = .complete :: rest) (hr : s.inReset = false)
    (hb : s.busy = true) : step s = State.perform { s with inputs := rest } :=
  (step_cons _ _ _ hin).trans (coreMove_busy { s with inputs := rest } hr hb)

/-- A whole command word placed by `withFetchWord` is the word issued. -/
theorem withFetchWord_eq_issueNext (s : State) (w : Word) : s.withFetchWord 32 w.toNat = s.issueNext w := by
  rw [State.withFetchWord, Nat.mod_eq_of_lt w.isLt, BitVec.ofNat_toNat, BitVec.setWidth_eq]

/-- Settles O40: the core's move performs the latched word, which is exec of what it decodes to. -/
theorem stepRunsTheDecodedCommand : Obligations.StepRunsTheDecodedCommand := by
  refine ⟨fun s i hr hb hdec => ⟨fun rest hin => ?_, fun hin => ?_⟩, fun s w i hdec => ?_⟩
  · rw [step_complete_eq_perform hin hr hb, perform_of_decode (s := { s with inputs := rest }) hdec]
  · rw [step_nil s hin, coreMove_busy s hr hb, perform_of_decode hdec]
  · rw [withFetchWord_eq_issueNext, step_complete_eq_perform (s.issueNext_inputs w) (s.issueNext_inReset w) (s.issueNext_busy w),
      perform_of_decode (i := i) hdec]
    rfl

/-- Below 0x20 the window holds A and B (R41). -/
theorem windowReg_operand_of_lt {off : Nat} (h : off < 0x20) : (∃ i, windowReg off = .a i) ∨ ∃ i, windowReg off = .b i := by
  unfold windowReg
  rw [if_pos h]
  split
  · exact .inl ⟨_, rfl⟩
  · exact .inr ⟨_, rfl⟩

/-- Settles O41, one rule of R27 at a time. -/
theorem issueLatchesAndCompletionPerforms : Obligations.IssueLatchesAndCompletionPerforms := by
  refine ⟨fun s w rest hr hin => ⟨fun hb => ?_, fun hb => ?_⟩, fun s rest hr hb hin => ?_, fun s off v rest hr hoff hal hin => ?_,
    fun s rest hr hin => ?_⟩
  · rw [step_memWrite hin (by decide) hr (by decide)]
    exact if_neg (by simp [hb])
  · rw [step_memWrite hin (by decide) hr (by decide)]
    exact if_pos hb
  · refine ⟨_, step_complete hin hr hb, ?_⟩
    rw [perform_eq]
    cases wordResult s.lcmd s.la s.lb with
    | complete v => exact ⟨rfl, rfl, rfl⟩
    | raise e => exact ⟨rfl, rfl, rfl⟩
  · rw [step_memWrite hin (by omega) hr hal]
    rcases windowReg_operand_of_lt hoff with ⟨i, hreg⟩ | ⟨i, hreg⟩
    · rw [hreg]; exact ⟨_, s.b, rfl⟩
    · rw [hreg]; exact ⟨s.a, _, rfl⟩
  · exact step_memRead hin (by decide) hr (by decide)

/-! ## Which agent changes which register (R21 to R23, R27, R28, R134, R140) -/

/-- A step from `s` leads to `t`, with the move that makes it: only the move the spec names for a register writes it. -/
inductive MovedByAgent (s : State) : State → Prop
  | keep (rest : List Input) (ws : List Word) (n : Nat) :
    MovedByAgent s { s with inputs := rest, readLog := ws, freeCount := n }
  | operandA (hmove : s.OperandMove 0x00) (x : Quad) (rest : List Input) : MovedByAgent s { s with a := x, inputs := rest }
  | operandB (hmove : s.OperandMove 0x10) (x : Quad) (rest : List Input) : MovedByAgent s { s with b := x, inputs := rest }
  | issue (hmove : s.IssueMove) (w : Word) (rest : List Input) : MovedByAgent s (State.issue { s with inputs := rest } w)
  | completion (hmove : s.CompletionMove) (rest : List Input) :
    MovedByAgent s (State.finish { s with inputs := rest } (wordResult s.lcmd s.la s.lb))
  | reset (hmove : s.ResetMove) (rest : List Input) (level : Bool) :
    MovedByAgent s { State.clearRegisters { s with inputs := rest } with inReset := level }

/-- The offset of a word of A (R41). -/
theorem offset_of_windowReg_a {off : Nat} {i : Fin 4} (h : windowReg off = .a i) (hal : off % 4 = 0) : off = 0x00 + 4 * i.val := by
  unfold windowReg at h
  split at h
  · cases h; simp only [Fin.val_ofNat]; omega
  · repeat' split at h
    all_goals cases h

/-- The offset of a word of B (R41). -/
theorem offset_of_windowReg_b {off : Nat} {i : Fin 4} (h : windowReg off = .b i) (hal : off % 4 = 0) : off = 0x10 + 4 * i.val := by
  unfold windowReg at h
  split at h
  · cases h
  · split at h
    · cases h; simp only [Fin.val_ofNat]; omega
    · repeat' split at h
      all_goals cases h

/-- The offset of CMD (R41). -/
theorem offset_of_windowReg_cmd {off : Nat} (h : windowReg off = .cmd) (hal : off % 4 = 0) : off = 0x30 := by
  have hcmd : 0x30 ≤ off ∧ off < 0x34 := by
    unfold windowReg at h
    grind
  omega

/-- The core's move, taken because it is the next input or because none is left. -/
theorem movedByAgent_of_coreMove {s t : State} {rest : List Input} (hin : s.inputs = [] ∨ ∃ l, s.inputs = .complete :: l)
    (h : State.coreMove { s with inputs := rest } = .next t) : MovedByAgent s t := by
  cases hr : s.inReset with
  | true =>
    rw [coreMove_inReset { s with inputs := rest } hr] at h
    cases h; exact .keep rest s.readLog s.freeCount
  | false =>
    cases hb : s.busy with
    | false =>
      rw [coreMove_idle { s with inputs := rest } hb] at h
      cases h; exact .keep rest s.readLog s.freeCount
    | true =>
      rw [coreMove_busy { s with inputs := rest } hr hb, perform_eq] at h
      cases h; exact .completion ⟨hr, hb, hin⟩ rest

theorem movedByAgent_of_hostRead {s t : State} {rest : List Input} {addr : Nat} {width : Width}
    (h : State.hostRead { s with inputs := rest } addr width = .next t) : MovedByAgent s t := by
  rcases hostRead_cases h with ⟨-, rfl⟩ | ⟨-, off, -, -, -, rfl⟩
  · exact .keep rest ..
  · exact .keep rest ..

theorem movedByAgent_of_hostWrite {s t : State} {rest : List Input} {addr : Nat} {width : Width} {data : BitVec 64}
    (hin : s.inputs = .write addr width data :: rest)
    (h : State.hostWrite { s with inputs := rest } addr width data = .next t) : MovedByAgent s t := by
  rcases hostWrite_cases h with ⟨-, rfl⟩ | ⟨hr, off, hoff, rfl, hal, hwrite⟩
  · exact .keep rest ..
  · obtain ⟨rfl, -⟩ := windowOffset_eq_some.1 hoff
    rcases writeReg_cases hwrite with ⟨i, hreg, rfl⟩ | ⟨i, hreg, rfl⟩ | ⟨hreg, hb, rfl⟩ | ⟨-, rfl⟩
    · rw [offset_of_windowReg_a hreg hal] at hin
      exact MovedByAgent.operandA (s := s) ⟨hr, i, data, rest, hin⟩ _ rest
    · rw [offset_of_windowReg_b hreg hal] at hin
      exact MovedByAgent.operandB (s := s) ⟨hr, i, data, rest, hin⟩ _ rest
    · rw [offset_of_windowReg_cmd hreg hal] at hin
      exact MovedByAgent.issue (s := s) ⟨hr, hb, data, rest, hin⟩ _ rest
    · exact .keep rest ..

/-- Every step that answers next is some agent's. -/
theorem movedByAgent_of_step {s t : State} (h : step s = .next t) : MovedByAgent s t := by
  cases hin : s.inputs with
  | nil => exact movedByAgent_of_coreMove (rest := s.inputs) (.inl hin) (step_nil s hin ▸ h)
  | cons e rest =>
    rw [step_cons s e rest hin] at h
    cases e with
    | read addr width => exact movedByAgent_of_hostRead h
    | write addr width data => exact movedByAgent_of_hostWrite hin h
    | complete => exact movedByAgent_of_coreMove (.inr ⟨rest, hin⟩) h
    | assertReset => cases h; exact .reset (.inl ⟨rest, hin⟩) rest true
    | releaseReset =>
      simp only [State.move, State.releaseReset, Host.Outcome.next.injEq] at h
      subst h
      split
      · rename_i hr; exact .reset (.inr ⟨hr, rest, hin⟩) rest false
      · exact .keep rest ..

/-- A completion that changes R ended with NONE: an error keeps R (R125). -/
theorem err_eq_none_of_finish_r_ne {s : State} {res : CmdResult} (h : (s.finish res).r ≠ s.r) : (s.finish res).err = .none := by
  cases res with
  | complete v => rfl
  | raise e => exact absurd rfl h

/-- Settles O55: an agent's move that does not write a register leaves it as it is, and the others are the ones named. -/
theorem registersChangeOnlyByTheirAgents : Obligations.RegistersChangeOnlyByTheirAgents := by
  intro s t hstep
  cases movedByAgent_of_step hstep with
  | keep rest ws n => simp
  | operandA hmove x rest => simp [hmove]
  | operandB hmove x rest => simp [hmove]
  | issue hmove w rest => simp [hmove]
  | completion hmove rest =>
    have hbusy := State.finish_busy { s with inputs := rest } (wordResult s.lcmd s.la s.lb)
    refine ⟨by simp, by simp, fun hr => .inl ⟨hmove, hbusy, ?_⟩, by simp, fun _ => .inr (.inl ⟨hmove, hbusy⟩),
      fun _ => .inl ⟨hmove, hbusy⟩⟩
    exact err_eq_none_of_finish_r_ne (s := { s with inputs := rest }) hr
  | reset hmove rest level => simp [hmove]

end Sys2Proof.Machine

/-! SUPPORT. The family 20_memory.md: the register map and its ignored writes (R41, R44), word and byte order (R42), operand writes (R45),
forbidden accesses (R40, R43), what a poll of STATUS says (R49), and RDR around a completion (R46). -/

namespace Sys2Proof.Machine

/-! ## The register map (R41) -/

/-- The bytes of one 32-bit register are all of one word of the window. -/
theorem windowReg_congr {off off' : Nat} (h : off / 4 = off' / 4) : windowReg off = windowReg off' := by
  have hlt (n : Nat) : off < 4 * n ↔ off' < 4 * n := by omega
  simp only [windowReg, h, hlt 4, hlt 8, hlt 12, hlt 13, hlt 14]

theorem windowReg_a (i : Fin 4) : windowReg (4 * i.val) = .a i := by
  fin_cases i <;> rfl

theorem windowReg_b (i : Fin 4) : windowReg (0x10 + 4 * i.val) = .b i := by
  fin_cases i <;> rfl

theorem windowReg_r (i : Fin 4) : windowReg (0x20 + 4 * i.val) = .r i := by
  fin_cases i <;> rfl

/-- From 0x20 on only CMD takes a write (R44). -/
theorem writeReg_ignored (s : State) (v : Word) {off : Nat} (h : 0x20 ≤ off) (hal : off % 4 = 0) (hcmd : off ≠ 0x30) :
    s.writeReg v (windowReg off) = .next s := by
  unfold windowReg
  rw [if_neg (by omega), if_neg (by omega)]
  split
  · rfl
  · rw [if_neg (by omega)]
    split
    · rfl
    · rfl

/-- Settles O44, one register of the map at a time. -/
theorem registerMapReadsAndIgnoredWrites : Obligations.RegisterMapReadsAndIgnoredWrites := by
  refine ⟨fun s off w rest hr hin => ⟨fun i hoff => ?_, fun hoff => ?_, fun hoff => ?_⟩, fun s off v rest hr hin hoff => ?_⟩
  · have hi := i.isLt
    rw [step_memRead hin (by omega) hr (by omega)]
    rcases hoff with ⟨rfl, rfl⟩ | ⟨rfl, rfl⟩ | ⟨rfl, rfl⟩
    · rw [windowReg_a]; rfl
    · rw [windowReg_b]; rfl
    · rw [windowReg_r]; rfl
  · subst hoff
    exact step_memRead hin (by decide) hr (by decide)
  · rcases hoff with rfl | rfl | rfl <;> exact step_memRead hin (by decide) hr (by decide)
  · have hrange : 0x20 ≤ off ∧ off < 0x40 ∧ off % 4 = 0 ∧ off ≠ 0x30 := by
      simp only [List.mem_cons, List.not_mem_nil, or_false] at hoff
      omega
    obtain ⟨hge, hlt, hal, hcmd⟩ := hrange
    rw [step_memWrite hin hlt hr hal, writeReg_ignored _ v hge hal hcmd]

/-! ## Word and byte order (R42) -/

/-- Byte k of word i is byte 4i + k of the register. -/
theorem byte_quadWord (x : Quad) (i : Fin 4) {k : Nat} (hk : k < 4) :
    (quadWord x i).extractLsb' (8 * k) 8 = x.extractLsb' (8 * (4 * i.val + k)) 8 := by
  refine BitVec.eq_of_getLsbD_eq fun j hj => ?_
  have hbit : 8 * k + j < 32 := by omega
  simp only [quadWord, BitVec.getLsbD_extractLsb', hj, hbit, decide_true, Bool.true_and]
  congr 1
  omega

theorem windowByte_eq (s : State) {off i : Nat} (hal : off % 4 = 0) (hi : i < 4) :
    s.windowByte (off + i) = (s.readReg (windowReg off)).extractLsb' (8 * i) 8 := by
  rw [State.windowByte, windowReg_congr (off' := off) (by omega), Nat.add_mod, hal, Nat.zero_add, Nat.mod_mod,
    Nat.mod_eq_of_lt hi]

/-- Settles O46: byte n of a register is byte n % 4 of its word n / 4. -/
theorem windowIsLittleEndian : Obligations.WindowIsLittleEndian := by
  refine fun s => ⟨fun n hn => ?_, fun off i _ hal hi => windowByte_eq s hal hi⟩
  obtain ⟨i, k, hk, rfl⟩ : ∃ (i : Fin 4) (k : Nat), k < 4 ∧ n = 4 * i.val + k :=
    ⟨⟨n / 4, by omega⟩, n % 4, by omega, by simp only; omega⟩
  refine ⟨?_, ?_, ?_⟩
  · rw [windowByte_eq s (by omega) hk, windowReg_a]
    exact byte_quadWord s.a i hk
  · rw [← Nat.add_assoc, windowByte_eq s (by omega) hk, windowReg_b]
    exact byte_quadWord s.b i hk
  · rw [← Nat.add_assoc, windowByte_eq s (by omega) hk, windowReg_r]
    exact byte_quadWord s.r i hk

/-! ## Operand writes and repeated reads (R45) -/

theorem quad_ext_words {x y : Quad} (h : ∀ j, quadWord x j = quadWord y j) : x = y := by
  rw [quad_eq_words x, quad_eq_words y, h, h, h, h]

theorem setQuadWord_setQuadWord (x : Quad) (i : Fin 4) (v : Word) : setQuadWord (setQuadWord x i v) i v = setQuadWord x i v :=
  quad_ext_words fun j => by
    rw [quadWord_setQuadWord (setQuadWord x i v), quadWord_setQuadWord]
    split
    · rfl
    · rfl

/-- A read does not see the model's own inputs and answers. -/
theorem readReg_frame (s : State) (rest : List Input) (ws : List Word) (reg : WindowReg) :
    State.readReg { s with inputs := rest, readLog := ws } reg = s.readReg reg := by cases reg <;> rfl

/-- An operand write made again, after its first time, changes nothing. -/
theorem writeReg_operand_again {s t : State} {v : Word} {off : Nat} (hoff : off < 0x20)
    (h : s.writeReg v (windowReg off) = .next t) :
    t.inputs = s.inputs ∧ t.inReset = s.inReset ∧
      ∀ rest, State.writeReg { t with inputs := rest } v (windowReg off) = .next { t with inputs := rest } := by
  rcases windowReg_operand_of_lt hoff with ⟨i, hreg⟩ | ⟨i, hreg⟩
  all_goals
    rw [hreg] at h ⊢
    cases h
    exact ⟨rfl, rfl, fun rest => by simp only [State.writeReg, setQuadWord_setQuadWord]⟩

/-- Settles O45: a register is the four words that are read of it, and a write replaces one of them. -/
theorem operandWritesReplaceOneWord : Obligations.OperandWritesReplaceOneWord := by
  refine ⟨fun s i v rest hr hin => ?_, fun s i v rest hr hin => ?_, fun s t off v rest hr hoff hal hin hstep => ?_,
    fun s off rest hr hoff hal hin => ⟨s.readReg (windowReg off), ?_⟩⟩
  · rw [step_memWrite hin (by omega) hr (by omega), windowReg_a]
    exact ⟨_, rfl, fun j => quadWord_setQuadWord s.a i j v⟩
  · rw [step_memWrite hin (by omega) hr (by omega), windowReg_b]
    exact ⟨_, rfl, fun j => quadWord_setQuadWord s.b i j v⟩
  · rw [step_memWrite hin (by omega) hr hal] at hstep
    obtain ⟨hin', hr', hagain⟩ := writeReg_operand_again hoff hstep
    rw [step_memWrite hin' (by omega) (hr'.trans hr) hal, hagain]
  · have hfirst := step_memRead hin hoff hr hal
    have hsecond := step_memRead (s := { s with inputs := memRead off :: rest, readLog := s.readReg (windowReg off) :: s.readLog })
      rfl hoff hr hal
    refine (run_succ_of_step hfirst 1).trans ((run_succ_of_step hsecond 0).trans ?_)
    rw [readReg_frame]
    rfl

/-! ## Faults (R40, R43, R140, R145) -/

theorem acceptedAccess_eq_false_iff {width : Width} {off : Nat} : acceptedAccess width off = false ↔ width ≠ .w32 ∨ off % 4 ≠ 0 := by
  rw [← Bool.not_eq_true, acceptedAccess_iff]
  tauto

theorem hostRead_busError {s : State} {addr off : Nat} {width : Width} (hoff : windowOffset addr = some off) (hr : s.inReset = false)
    (hacc : acceptedAccess width off = false) : s.hostRead addr width = .fault .busError := by
  simp [State.hostRead, State.readAt, hoff, hr, hacc]

theorem hostWrite_busError {s : State} {addr off : Nat} {width : Width} (data : BitVec 64) (hoff : windowOffset addr = some off)
    (hr : s.inReset = false) (hacc : acceptedAccess width off = false) : s.hostWrite addr width data = .fault .busError := by
  simp [State.hostWrite, State.writeAt, hoff, hr, hacc]

/-- Settles O43: the port looks at the width and the alignment once the offset is found in the window and reset is off. -/
theorem otherWidthsAndMisalignedAreBusErrors : Obligations.OtherWidthsAndMisalignedAreBusErrors := by
  intro s off width data rest hoff hr hbad
  have hwin := windowOffset_base off hoff
  have hacc := acceptedAccess_eq_false_iff.2 hbad
  refine ⟨fun hin => ?_, fun hin => ?_⟩
  · rw [step_cons _ _ _ hin]
    exact hostRead_busError hwin hr hacc
  · rw [step_cons _ _ _ hin]
    exact hostWrite_busError data hwin hr hacc

/-- An outcome is a next state where `ok` says so, else a fault, and never a refusal. -/
def NextOrFault (ok : Bool) (o : Host.Outcome State Fault Refusal) : Prop :=
  (ok = true → ∃ t, o = .next t) ∧ (ok = false → ∃ f, o = .fault f)

theorem nextOrFault_next (t : State) : NextOrFault true (.next t) := ⟨fun _ => ⟨t, rfl⟩, fun h => (nomatch h)⟩

theorem nextOrFault_fault (f : Fault) : NextOrFault false (.fault f) := ⟨fun h => (nomatch h), fun _ => ⟨f, rfl⟩⟩

/-- A register write faults on CMD while BUSY = 1 and nowhere else (R145). -/
theorem writeReg_nextOrFault (s : State) (v : Word) (reg : WindowReg) :
    NextOrFault (!(reg == .cmd && s.busy)) (s.writeReg v reg) := by
  cases reg with
  | cmd =>
    cases hb : s.busy with
    | false => simpa [State.writeReg, hb] using nextOrFault_next (s.issue v)
    | true => simpa [State.writeReg, hb] using nextOrFault_fault .hazard
  | a i => exact nextOrFault_next _
  | b i => exact nextOrFault_next _
  | r i => exact nextOrFault_next _
  | status => exact nextOrFault_next _
  | reserved => exact nextOrFault_next _

theorem hostRead_nextOrFault (s : State) (addr : Nat) (width : Width) :
    NextOrFault (s.allows (.read addr width)) (s.hostRead addr width) := by
  cases hoff : windowOffset addr with
  | none => simpa only [State.allows, State.hostRead, hoff] using nextOrFault_fault .outsideWindow
  | some off =>
    cases hr : s.inReset with
    | true => simpa [State.allows, State.hostRead, hoff, hr] using nextOrFault_next s.answerFree
    | false =>
      cases hacc : acceptedAccess width off with
      | true => simpa [State.allows, State.hostRead, State.readAt, hoff, hr, hacc] using nextOrFault_next _
      | false =>
        rw [hostRead_busError hoff hr hacc]
        simpa [State.allows, hoff, hr, hacc] using nextOrFault_fault .busError

theorem hostWrite_nextOrFault (s : State) (addr : Nat) (width : Width) (data : BitVec 64) :
    NextOrFault (s.allows (.write addr width data)) (s.hostWrite addr width data) := by
  cases hoff : windowOffset addr with
  | none => simpa only [State.allows, State.hostWrite, hoff] using nextOrFault_fault .outsideWindow
  | some off =>
    cases hr : s.inReset with
    | true => simpa [State.allows, State.hostWrite, hoff, hr] using nextOrFault_next s
    | false =>
      cases hacc : acceptedAccess width off with
      | true =>
        simpa [State.allows, State.hostWrite, State.writeAt, hoff, hr, hacc] using
          writeReg_nextOrFault s (data.setWidth 32) (windowReg off)
      | false =>
        rw [hostWrite_busError data hoff hr hacc]
        simpa [State.allows, hoff, hr, hacc] using nextOrFault_fault .busError

theorem coreMove_next (s : State) : ∃ t, s.coreMove = .next t := by
  unfold State.coreMove
  split
  · exact ⟨_, rfl⟩
  · split
    · exact ⟨_, perform_eq s⟩
    · exact ⟨_, rfl⟩

theorem move_nextOrFault (s : State) (e : Input) : NextOrFault (s.allows e) (s.move e) := by
  cases e with
  | read addr width => exact hostRead_nextOrFault s addr width
  | write addr width data => exact hostWrite_nextOrFault s addr width data
  | complete => exact ⟨fun _ => coreMove_next s, fun h => (nomatch h)⟩
  | assertReset => exact nextOrFault_next _
  | releaseReset => exact nextOrFault_next _

/-- What a move may be does not depend on the moves after it. -/
theorem allows_inputs (s : State) (l : List Input) (e : Input) : State.allows { s with inputs := l } e = s.allows e := by
  cases e <;> rfl

/-- Settles O48: a step is the core's move or the next input's, and the latter faults where `allows` says no. -/
theorem stepFaultsOnlyOnForbiddenAccesses : Obligations.StepFaultsOnlyOnForbiddenAccesses := by
  refine fun s => ⟨fun hin => ?_, fun e rest hin => ?_⟩
  · rw [step_nil s hin]
    exact coreMove_next s
  · rw [step_cons s e rest hin, ← allows_inputs s rest e]
    exact move_nextOrFault _ e

/-! ## Polling STATUS (R49) -/

/-- Settles O53: the answer is STATUS, and the invariant, kept by the read, says what BUSY = 0 means. -/
theorem busyZeroMeansResultsAreCurrent : Obligations.BusyZeroMeansResultsAreCurrent := by
  intro s t rest hinv hr hin hstep
  obtain ⟨-, hcurrent⟩ := everyStepKeepsTheInvariant s t hinv hstep
  rw [step_memRead hin (by decide) hr (by decide)] at hstep
  cases hstep
  obtain ⟨hbusy, herr, -⟩ := statusWordLayout.1 s.busy s.err
  exact ⟨statusWord s.busy s.err, rfl, herr, fun hzero => hcurrent (hbusy.symm.trans hzero)⟩

/-! ## Four reads of R and one completion (R46, R144, log 28) -/

/-- The offsets that RDR reads, in its order (log 28). -/
def rdrOffsets : List Nat := [0x2C, 0x28, 0x24, 0x20]

theorem macroRdr_eq : macroRdr = rdrOffsets.map memRead := rfl

theorem rdrOffsets_accepted : ∀ off ∈ rdrOffsets, off < 64 ∧ off % 4 = 0 := by decide

/-- What RDR gives when the completion follows its first k reads: the words read before it are `old`'s, the others `new`'s. -/
def mixedResult (k : Nat) (old new : Quad) : Quad :=
  Quad.ofWords (if 4 ≤ k + 3 then quadWord old 3 else quadWord new 3) (if 4 ≤ k + 2 then quadWord old 2 else quadWord new 2)
    (if 4 ≤ k + 1 then quadWord old 1 else quadWord new 1) (if 4 ≤ k + 0 then quadWord old 0 else quadWord new 0)

theorem quadWord_mixedResult (k : Nat) (old new : Quad) (j : Fin 4) :
    quadWord (mixedResult k old new) j = if 4 ≤ k + j.val then quadWord old j else quadWord new j := by
  rw [mixedResult, quadWord_ofWords]
  fin_cases j <;> rfl

/-- The state that the completion step leads to, no input being left. -/
def State.completed (s : State) : State := State.finish { s with inputs := [] } (wordResult s.lcmd s.la s.lb)

/-- The completion step, whatever the inputs left and the answers given. -/
theorem step_completed {s : State} (hr : s.inReset = false) (hb : s.busy = true) (rest : List Input) (ws : List Word) :
    step { s with inputs := .complete :: rest, readLog := ws } = .next { s.completed with inputs := rest, readLog := ws } := by
  refine (step_complete (s := { s with inputs := .complete :: rest, readLog := ws }) rfl hr hb).trans ?_
  unfold State.completed
  cases wordResult s.lcmd s.la s.lb with
  | complete v => rfl
  | raise e => rfl

/-- What reads of the offsets `offs` in the state `s` add to the answers, newest first. -/
def State.answersTo (s : State) (offs : List Nat) : List Word := (offs.map fun off => s.readReg (windowReg off)).reverse

theorem answersTo_readLog (s : State) (ws : List Word) (offs : List Nat) :
    State.answersTo { s with readLog := ws } offs = s.answersTo offs := by
  simp only [State.answersTo, readReg_frame s s.inputs ws]

theorem run_reads {offs : List Nat} (h : ∀ off ∈ offs, off < 64 ∧ off % 4 = 0) {s : State} (hr : s.inReset = false) :
    Host.Core.run core offs.length { s with inputs := offs.map memRead } =
      .next { s with inputs := [], readLog := s.answersTo offs ++ s.readLog } := by
  have hrun := run_memReads 0 [] offs h s hr
  rw [List.append_nil] at hrun
  exact hrun

/-- Accepted reads before and after a completion: the first are answered from the old state, the others from the completed one. -/
theorem run_reads_around_completion {s : State} (hr : s.inReset = false) (hb : s.busy = true) {before after : List Nat}
    (hbefore : ∀ off ∈ before, off < 64 ∧ off % 4 = 0) (hafter : ∀ off ∈ after, off < 64 ∧ off % 4 = 0) :
    Host.Core.run core (before.length + (after.length + 1))
        { s with inputs := before.map memRead ++ .complete :: after.map memRead } =
      .next { s.completed with inputs := [], readLog := s.completed.answersTo after ++ (s.answersTo before ++ s.readLog) } := by
  generalize hws : s.answersTo before ++ s.readLog = ws
  calc Host.Core.run core (before.length + (after.length + 1))
          { s with inputs := before.map memRead ++ .complete :: after.map memRead }
      = Host.Core.run core (after.length + 1) { s with inputs := .complete :: after.map memRead, readLog := ws } :=
        hws ▸ run_memReads _ _ before hbefore s hr
    _ = Host.Core.run core after.length { s.completed with inputs := after.map memRead, readLog := ws } :=
        run_succ_of_step (step_completed hr hb _ ws) _
    _ = .next { s.completed with inputs := [], readLog := s.completed.answersTo after ++ ws } := by
        rw [← answersTo_readLog s.completed ws]
        exact run_reads hafter (s := { s.completed with readLog := ws }) ((State.finish_inReset _ _).trans hr)

/-- RDR around a completion, its first k reads before it. -/
theorem run_rdr_around_completion {s : State} (hr : s.inReset = false) (hb : s.busy = true) {k : Nat} (hk : k ≤ 4) :
    ∃ v, Host.Core.run core 5 { s with inputs := macroRdr.take k ++ .complete :: macroRdr.drop k } = .next v ∧
      v.r = s.completed.r ∧ rdrValue v.readLog = some (mixedResult k s.r s.completed.r) := by
  have hrun := run_reads_around_completion hr hb (before := rdrOffsets.take k) (after := rdrOffsets.drop k)
    (fun off h => rdrOffsets_accepted off (List.mem_of_mem_take h)) (fun off h => rdrOffsets_accepted off (List.mem_of_mem_drop h))
  have hlen : (rdrOffsets.take k).length + ((rdrOffsets.drop k).length + 1) = 5 := by
    simp only [List.length_take, List.length_drop, rdrOffsets, List.length_cons, List.length_nil]
    omega
  rw [hlen, List.map_take, List.map_drop, ← macroRdr_eq] at hrun
  refine ⟨_, hrun, rfl, ?_⟩
  interval_cases k <;> rfl

/-- NEG of 1 in flight over the result 0: the completed result is all ones. -/
def negOneInFlight : State := { State.reset with la := 1, lcmd := encode .neg, busy := true }

theorem negOneInFlight_completed_r : negOneInFlight.completed.r = BitVec.allOnes 128 := by decide

/-- Settles O56: the words are `mixedResult`'s; NEG of 1 in flight over the result 0 gives the mixed value 2^64 − 1. -/
theorem fourReadsCanMixTwoResults : Obligations.FourReadsCanMixTwoResults := by
  constructor
  · intro s k hr hb hk
    obtain ⟨v, hrun, hvr, hval⟩ := run_rdr_around_completion hr hb hk
    exact ⟨_, v, _, step_completed hr hb [] s.readLog, hrun, hvr, hval, quadWord_mixedResult k s.r s.completed.r⟩
  · refine ⟨negOneInFlight, rfl, rfl, ?_⟩
    have hold := run_memReads 0 [.complete] rdrOffsets rdrOffsets_accepted negOneInFlight rfl
    obtain ⟨u, hnew, hur, hu⟩ := run_rdr_around_completion (s := negOneInFlight) rfl rfl (k := 0) (by decide)
    obtain ⟨v, hmixed, -, hv⟩ := run_rdr_around_completion (s := negOneInFlight) rfl rfl (k := 2) (by decide)
    rw [negOneInFlight_completed_r] at hur hu hv
    refine ⟨_, u, v, 0, _, _, hold, rfl, rfl, hnew, hu, ?_, hmixed, hv, ?_⟩
    · rw [hur]; decide
    · decide

end Sys2Proof.Machine

/-! SUPPORT. The family 30_encoding.md: the fields of a word (R55 to R57), which instructions a word stands for, the decoder's arms by
opcode (R58, R60), and that decoding and encoding are inverse (R61). -/

namespace Sys2Proof.Machine

/-! ## A word and its fields (R55, R56) -/

theorem rsvField_eq_zero_iff (w : Word) : rsvField w = 0 ↔ w.extractLsb' 24 8 = 0 ∧ w.extractLsb' 11 5 = 0 := by
  simp only [rsvField, ← BitVec.toNat_inj, toNat_append_eq, BitVec.ofNat_eq_ofNat, BitVec.toNat_ofNat, Nat.zero_mod]
  omega

/-- A word with no reserved bit set is made of its three fields. -/
theorem packWord_fields {w : Word} (h : rsvField w = 0) : packWord (opField w) (rmField w) (immField w) = w := by
  obtain ⟨hhi, hlo⟩ := (rsvField_eq_zero_iff w).1 h
  have hw := w.isLt
  apply BitVec.eq_of_toNat_eq
  simp only [← BitVec.toNat_inj, toNat_extractLsb'_eq, BitVec.ofNat_eq_ofNat, BitVec.toNat_ofNat] at hhi hlo
  simp only [packWord, opField, rmField, immField, toNat_append_eq, toNat_extractLsb'_eq, BitVec.toNat_ofNat]
  omega

theorem encodedFields (i : Instr) : Laws.EncodedFields.Statement i := Laws.fields_packWord _ _ _

/-- The word of an instruction is the one word that has its fields. -/
theorem encode_eq_of_fields {i : Instr} {w : Word} (hrsv : rsvField w = 0) (hop : opField w = i.opcode)
    (hrm : rmField w = i.rmBits) (himm : immField w = i.immBits) : encode i = w := by
  rw [encode, ← hop, ← hrm, ← himm, packWord_fields hrsv]

/-! ## The instructions that words stand for (R57, R58, R63) -/

/-- The thirteen commands whose word is the opcode and nothing else (R58). -/
def plainInstrs : List Instr :=
  [.add, .sub, .neg, .abs, .mul, .div, .mod, .isqrt, .dadd, .dsub, .dmul, .ddiv, .dnorm]

theorem plainInstrs_fields : ∀ i ∈ plainInstrs, i.WellFormed ∧ i.rmBits = 0 ∧ i.immBits = 0 := by decide

theorem ofRm_eq_some_iff {rm : BitVec 3} {mode : RoundingMode} : RoundingMode.ofRm rm = some mode ↔ rm = mode.rm := by
  cases mode <;> revert rm <;> decide

theorem ofRm_eq_none_iff {rm : BitVec 3} : RoundingMode.ofRm rm = none ↔ rm.toNat ∈ [5, 6, 7] := by
  revert rm; decide

/-- The three shared words (R63): a pseudo-instruction has the word of the DRND it stands for. -/
theorem encode_drndInstr (places : Int) (mode : RoundingMode) : encode (drndInstr places mode) = encode (.drnd places mode) := by
  unfold drndInstr
  split
  · subst places; cases mode <;> rfl
  · rfl

theorem drndInstr_wellFormed {places : Int} (hlo : -128 ≤ places) (hhi : places ≤ 127) (mode : RoundingMode) :
    (drndInstr places mode).WellFormed := by
  unfold drndInstr
  split
  · subst places; cases mode <;> rfl
  · next hne => simp [Instr.WellFormed, Instr.wellFormed, Instr.isPseudoForm, hlo, hhi, hne]

theorem drndInstr_of_wellFormed {places : Int} {mode : RoundingMode} (h : (Instr.drnd places mode).WellFormed) :
    drndInstr places mode = .drnd places mode := by
  unfold drndInstr
  split
  · subst places
    cases mode with
    | toNearest | toNearestTiesAway => rfl
    | toZero | toPositiveInfinity | toNegativeInfinity => cases h
  · rfl

/-- The well-formed instructions: the plain ones, SCL10 with an index into the table, and what DRND's operands stand for. -/
theorem wellFormed_iff {i : Instr} : i.WellFormed ↔
    i ∈ plainInstrs ∨ (∃ k ≤ 38, i = .scl10 k) ∨ ∃ places mode, -128 ≤ places ∧ places ≤ 127 ∧ i = drndInstr places mode := by
  constructor
  · intro h
    cases i with
    | scl10 k => exact .inr (.inl ⟨k, of_decide_eq_true h, rfl⟩)
    | drnd places mode =>
      have hrange : -128 ≤ places ∧ places ≤ 127 := by
        simp only [Instr.WellFormed, Instr.wellFormed, Bool.and_eq_true, decide_eq_true_eq] at h
        exact h.1
      exact .inr (.inr ⟨places, mode, hrange.1, hrange.2, (drndInstr_of_wellFormed h).symm⟩)
    | dceil => exact .inr (.inr ⟨0, .toPositiveInfinity, by decide, by decide, rfl⟩)
    | dfloor => exact .inr (.inr ⟨0, .toNegativeInfinity, by decide, by decide, rfl⟩)
    | dtrunc => exact .inr (.inr ⟨0, .toZero, by decide, by decide, rfl⟩)
    | _ => exact .inl (by decide)
  · rintro (h | ⟨k, hk, rfl⟩ | ⟨places, mode, hlo, hhi, rfl⟩)
    · exact (plainInstrs_fields i h).1
    · exact decide_eq_true hk
    · exact drndInstr_wellFormed hlo hhi mode

/-! ## The decoder's arms (R58, R60) -/

/-- The fifteen values of OP that R58 gives a command. -/
def opcodeValues : List Nat :=
  [0x01, 0x02, 0x03, 0x04, 0x05, 0x06, 0x07, 0x08, 0x09, 0x11, 0x12, 0x13, 0x14, 0x15, 0x16]

theorem plainInstrs_opcode : ∀ i ∈ plainInstrs, i.opcode.toNat ∈ opcodeValues ∧ i.opcode ≠ 0x09 ∧ i.opcode ≠ 0x15 := by decide

theorem decode_of_plain {w : Word} {i : Instr} (hi : i ∈ plainInstrs) (hop : opField w = i.opcode) :
    decode w = decodePlain w i := by
  unfold decode
  rw [hop]
  fin_cases hi <;> rfl

theorem decode_of_scl10 {w : Word} (hop : opField w = 0x09) : decode w = decodeScl10 w := by
  unfold decode
  rw [hop]
  rfl

theorem decode_of_drnd {w : Word} (hop : opField w = 0x15) : decode w = decodeDrnd w := by
  unfold decode
  rw [hop]
  rfl

theorem decode_of_unknown {w : Word} (hop : (opField w).toNat ∉ opcodeValues) : decode w = .error .opcode := by
  unfold decode
  split <;> simp_all [opcodeValues]

/-- What OP selects: a plain command, SCL10, DRND or nothing. -/
theorem opcode_cases (op : BitVec 8) :
    (∃ i ∈ plainInstrs, op = i.opcode) ∨ op = 0x09 ∨ op = 0x15 ∨ op.toNat ∉ opcodeValues := by
  revert op; decide

theorem decodePlain_eq_ok_iff {w : Word} {i j : Instr} :
    decodePlain w j = .ok i ↔ rsvField w = 0 ∧ rmField w = 0 ∧ immField w = 0 ∧ i = j := by
  unfold decodePlain
  split_ifs <;> simp_all [eq_comm]

theorem decodeScl10_eq_ok_iff {w : Word} {i : Instr} :
    decodeScl10 w = .ok i ↔
      rsvField w = 0 ∧ rmField w = 0 ∧ (immField w).toNat ≤ 38 ∧ i = .scl10 (immField w).toNat := by
  unfold decodeScl10
  split_ifs <;> simp_all [Config.lastPower, eq_comm]

theorem decodeDrnd_eq_ok_iff {w : Word} {i : Instr} :
    decodeDrnd w = .ok i ↔
      rsvField w = 0 ∧ ∃ mode, rmField w = mode.rm ∧ i = drndInstr (immField w).toInt mode := by
  simp only [← ofRm_eq_some_iff]
  unfold decodeDrnd
  split_ifs
  · simp_all
  · cases RoundingMode.ofRm (rmField w) <;> simp_all [eq_comm]

/-! ## Decoding and encoding are inverse (R61) -/

theorem decode_encode_of_plain {i : Instr} (hi : i ∈ plainInstrs) : decode (encode i) = .ok i := by
  obtain ⟨hop, hrm, himm, hrsv⟩ := encodedFields i
  obtain ⟨-, hrm0, himm0⟩ := plainInstrs_fields i hi
  rw [decode_of_plain hi hop, decodePlain_eq_ok_iff]
  exact ⟨hrsv, hrm.trans hrm0, himm.trans himm0, rfl⟩

theorem decode_encode_scl10 {k : Nat} (hk : k ≤ 38) : decode (encode (.scl10 k)) = .ok (.scl10 k) := by
  obtain ⟨hop, hrm, himm, hrsv⟩ := encodedFields (.scl10 k)
  have hval : (immField (encode (.scl10 k))).toNat = k := by
    rw [himm, Instr.immBits, BitVec.toNat_ofNat, Nat.mod_eq_of_lt (by omega)]
  rw [decode_of_scl10 hop, decodeScl10_eq_ok_iff, hval]
  exact ⟨hrsv, hrm, hk, rfl⟩

theorem decode_encode_drnd {places : Int} (hlo : -128 ≤ places) (hhi : places ≤ 127) (mode : RoundingMode) :
    decode (encode (.drnd places mode)) = .ok (drndInstr places mode) := by
  obtain ⟨hop, hrm, himm, hrsv⟩ := encodedFields (.drnd places mode)
  have hval : (immField (encode (.drnd places mode))).toInt = places := by
    rw [himm, Instr.immBits, BitVec.toInt_ofInt_eq_self (by decide) (by omega) (by omega)]
  rw [decode_of_drnd hop, decodeDrnd_eq_ok_iff, hval]
  exact ⟨hrsv, mode, hrm, rfl⟩

/-- Settles O2, for a plain command, SCL10 and DRND's operands; a pseudo-instruction has DRND's word. -/
theorem decodeOfEncodeIsTheInstruction : Obligations.DecodeOfEncodeIsTheInstruction := by
  refine ⟨fun i hwf => ?_, fun places mode hlo hhi => ⟨decode_encode_drnd hlo hhi mode, encode_drndInstr places mode⟩⟩
  rcases wellFormed_iff.1 hwf with hi | ⟨k, hk, rfl⟩ | ⟨places, mode, hlo, hhi, rfl⟩
  · exact decode_encode_of_plain hi
  · exact decode_encode_scl10 hk
  · rw [encode_drndInstr, decode_encode_drnd hlo hhi]

/-- Settles O3: in each arm of the decoder, the fields it accepts are those of the instruction it answers. -/
theorem encodeOfDecodeIsTheWord : Obligations.EncodeOfDecodeIsTheWord := by
  intro w i hdec
  rcases opcode_cases (opField w) with ⟨j, hj, hop⟩ | hop | hop | hop
  · obtain ⟨hwf, hrm, himm⟩ := plainInstrs_fields j hj
    rw [decode_of_plain hj hop, decodePlain_eq_ok_iff] at hdec
    obtain ⟨hrsv, hrm0, himm0, rfl⟩ := hdec
    exact ⟨hwf, encode_eq_of_fields hrsv hop (hrm0.trans hrm.symm) (himm0.trans himm.symm)⟩
  · rw [decode_of_scl10 hop, decodeScl10_eq_ok_iff] at hdec
    obtain ⟨hrsv, hrm0, hk, rfl⟩ := hdec
    exact ⟨decide_eq_true hk, encode_eq_of_fields hrsv hop hrm0 (by simp [Instr.immBits])⟩
  · rw [decode_of_drnd hop, decodeDrnd_eq_ok_iff] at hdec
    obtain ⟨hrsv, mode, hrm, rfl⟩ := hdec
    have hlo : -128 ≤ (immField w).toInt := BitVec.le_toInt (immField w)
    have hhi : (immField w).toInt < 128 := BitVec.toInt_lt
    refine ⟨drndInstr_wellFormed hlo (by omega) mode, ?_⟩
    rw [encode_drndInstr]
    exact encode_eq_of_fields hrsv hop hrm (by simp [Instr.immBits])
  · rw [decode_of_unknown hop] at hdec
    cases hdec

/-! ## Illegal words (R60) -/

/-- Illegal is the opposite of legal (R61), so that the arms' legal words give their illegal ones. -/
theorem exists_error_iff {x : Except Illegal Instr} : (∃ e, x = .error e) ↔ ¬∃ i, x = .ok i := by
  cases x <;> simp

theorem decodePlain_error_iff {w : Word} {i : Instr} :
    (∃ e, decodePlain w i = .error e) ↔ rsvField w ≠ 0 ∨ rmField w ≠ 0 ∨ immField w ≠ 0 := by
  simp only [exists_error_iff, decodePlain_eq_ok_iff, exists_and_left, exists_eq, and_true, not_and_or, ne_eq]

theorem decodeScl10_error_iff {w : Word} :
    (∃ e, decodeScl10 w = .error e) ↔ rsvField w ≠ 0 ∨ rmField w ≠ 0 ∨ 38 < (immField w).toNat := by
  simp only [exists_error_iff, decodeScl10_eq_ok_iff, exists_and_left, exists_eq, and_true, not_and_or, not_le, ne_eq]

theorem decodeDrnd_error_iff {w : Word} :
    (∃ e, decodeDrnd w = .error e) ↔ rsvField w ≠ 0 ∨ (rmField w).toNat ∈ [5, 6, 7] := by
  simp only [exists_error_iff, decodeDrnd_eq_ok_iff, exists_and_left, not_and_or, ne_eq, ← ofRm_eq_none_iff,
    ← ofRm_eq_some_iff]
  cases RoundingMode.ofRm (rmField w) <;> simp

/-- R60 on the fields of a word, in the order (a) to (f). -/
theorem decode_error_iff (w : Word) :
    (∃ e, decode w = .error e) ↔
      (opField w).toNat ∉ opcodeValues ∨ rsvField w ≠ 0 ∨ (opField w ≠ 0x15 ∧ rmField w ≠ 0) ∨
      (opField w = 0x15 ∧ (rmField w).toNat ∈ [5, 6, 7]) ∨
      (opField w ≠ 0x09 ∧ opField w ≠ 0x15 ∧ immField w ≠ 0) ∨ (opField w = 0x09 ∧ 38 < (immField w).toNat) := by
  rcases opcode_cases (opField w) with ⟨i, hi, hop⟩ | hop | hop | hop
  · obtain ⟨hmem, hne9, hne15⟩ := plainInstrs_opcode i hi
    rw [decode_of_plain hi hop, decodePlain_error_iff, hop]
    tauto
  · rw [decode_of_scl10 hop, decodeScl10_error_iff, hop]
    simp [opcodeValues]
  · rw [decode_of_drnd hop, decodeDrnd_error_iff, hop]
    simp [opcodeValues]
  · rw [decode_of_unknown hop]
    exact iff_of_true ⟨_, rfl⟩ (.inl hop)

/-- Settles O4: the reserved bits are the two parts of RSV, and an illegal word's completion is the error entry. -/
theorem illegalWordsAreThoseOfR60 : Obligations.IllegalWordsAreThoseOfR60 := by
  refine ⟨fun w => ?_, fun s e hdec => ?_⟩
  · rw [decode_error_iff, Ne, rsvField_eq_zero_iff, not_and_or]
    rfl
  · rw [perform_eq, wordResult, hdec]
    rfl

/-! ## Sample words and the pseudo-instructions (R58, R62, R63) -/

/-- Settles O1: each is one run of the decoder or of the assembler. -/
theorem sampleWordsDecodeAndAssemble : Obligations.SampleWordsDecodeAndAssemble :=
  ⟨rfl, rfl, rfl, rfl, rfl, rfl, rfl, rfl, rfl, rfl, rfl⟩

theorem withDec_of_dec {a : Quad} {x : Dec} (h : dec a = some x) (f : Dec → CmdResult) : withDec a f = f x := by
  rw [withDec, h]

/-- Settles O5: the words are computed, a pseudo-instruction's arm is DRND's, and a decoded operand completes. -/
theorem pseudoInstructionsAreDrnd : Obligations.PseudoInstructionsAreDrnd := by
  refine ⟨by decide, by decide, by decide, fun s => ⟨rfl, rfl, rfl⟩, fun a b x hx => ?_⟩
  simp only [completes_iff]
  exact ⟨withDec_of_dec hx _, withDec_of_dec hx _, withDec_of_dec hx _⟩

end Sys2Proof.Machine

/-! SUPPORT. The family 40_wide_integer.md: each WideInteger command as an operation on 128-bit words (R65 to R71, R73, R74), and the
reference datapaths of its units: ten partial products (R69, C7), the divider's tiers (R72), Heron's method (R73). -/

namespace Sys2Proof.Machine

/-! ## Patterns of sums and products (R10) -/

theorem u128_add (v w : Int) : u128 (v + w) = u128 v + u128 w := by
  simp only [u128_eq_ofInt, BitVec.ofInt_add]

theorem u128_neg (v : Int) : u128 (-v) = -u128 v := by
  simp only [u128_eq_ofInt, BitVec.ofInt_neg]

theorem u128_sub (v w : Int) : u128 (v - w) = u128 v - u128 w := by
  rw [Int.sub_eq_add_neg, u128_add, u128_neg, BitVec.sub_eq_add_neg]

theorem u128_mul (v w : Int) : u128 (v * w) = u128 v * u128 w := by
  simp only [u128_eq_ofInt, BitVec.ofInt_mul]

theorem u128_toNat (x : Quad) : u128 x.toNat = x := by
  rw [u128_natCast, BitVec.ofNat_toNat, BitVec.setWidth_eq]

/-- Bit 127 is the sign (R24). -/
theorem signBit_iff {x : Quad} : signBit x = true ↔ s128 x < 0 := by
  have hx := x.isLt
  unfold signBit s128
  split
  case isTrue h => exact iff_of_true h (by omega)
  case isFalse h => exact iff_of_false h (by omega)

/-! ## Adder/subtractor (R65 to R68) -/

theorem completes_add_iff {a b v : Quad} : Completes .add a b v ↔ a + b = v := by
  rw [completes_iff, Instr.result, wideAdd_eq, CmdResult.complete.injEq]

theorem completes_sub_iff {a b v : Quad} : Completes .sub a b v ↔ a - b = v := by
  rw [completes_iff, Instr.result, wideSub_eq, CmdResult.complete.injEq]

theorem completes_neg_iff {a b v : Quad} : Completes .neg a b v ↔ -a = v := by
  rw [completes_iff, Instr.result, wideNeg_eq, CmdResult.complete.injEq]

theorem completes_abs_iff {a b v : Quad} : Completes .abs a b v ↔ (if signBit a then -a else a) = v := by
  rw [completes_iff, Instr.result, wideAbs, wideNeg_eq, CmdResult.complete.injEq]

/-- The two words of a sum: the carry of the low words goes into the high words. -/
theorem quad_add_words (a b : Quad) : quadLo (a + b) = quadLo a + quadLo b ∧
    quadHi (a + b) = quadHi a + quadHi b + (if (quadLo a).toNat + (quadLo b).toNat < 2 ^ 64 then 0 else 1) := by
  have ha := a.isLt
  have hb := b.isLt
  constructor <;> apply BitVec.eq_of_toNat_eq <;>
    simp only [BitVec.toNat_add, toNat_quadLo, toNat_quadHi]
  · omega
  · split <;> simp <;> omega

/-- The two words of a difference: the borrow of the low words comes out of the high words. -/
theorem quad_sub_words (a b : Quad) : quadLo (a - b) = quadLo a - quadLo b ∧
    quadHi (a - b) = quadHi a - quadHi b - (if (quadLo a).toNat < (quadLo b).toNat then 1 else 0) := by
  have ha := a.isLt
  have hb := b.isLt
  constructor <;> apply BitVec.eq_of_toNat_eq <;>
    simp only [BitVec.toNat_sub, toNat_quadLo, toNat_quadHi]
  · omega
  · split <;> simp <;> omega

/-- Settles O6: ADD is the sum of 128-bit words, whose pattern is that of either reading. -/
theorem addIsTheSumModulo2Pow128 : Obligations.AddIsTheSumModulo2Pow128 := by
  refine ⟨rfl, fun a b => ?_, fun a b => ⟨a + b, completes_add_iff.2 rfl, quad_add_words a b⟩, completes_add_iff.2 (by decide),
    fun _ => completes_add_iff.2 (BitVec.add_zero _), completes_add_iff.2 (by decide)⟩
  simp only [completes_add_iff, u128_add, u128_s128, u128_toNat, and_self]

/-- Settles O7: SUB is the difference of 128-bit words, whose pattern is that of either reading. -/
theorem subIsTheDifferenceModulo2Pow128 : Obligations.SubIsTheDifferenceModulo2Pow128 := by
  refine ⟨rfl, fun a b => ?_, fun a b => ⟨a - b, completes_sub_iff.2 rfl, quad_sub_words a b⟩, completes_sub_iff.2 (by decide),
    completes_sub_iff.2 (by decide), fun _ => completes_sub_iff.2 (BitVec.sub_self _), completes_sub_iff.2 (by decide)⟩
  simp only [completes_sub_iff, u128_sub, u128_s128, u128_toNat, and_self]

/-- Settles O8: NEG is the negation of 128-bit words. -/
theorem negIsTwosComplement : Obligations.NegIsTwosComplement := by
  unfold Obligations.NegIsTwosComplement
  simp only [completes_neg_iff, u128_neg, u128_s128, and_true]
  refine ⟨rfl, fun a _ => BitVec.neg_eq_not_add a, fun _ => by decide, ?_, fun _ => by decide⟩
  rintro a - - v rfl
  exact BitVec.neg_neg

/-- The conditional negation gives the pattern of the absolute value. -/
theorem ite_signBit_neg (a : Quad) : (if signBit a then -a else a) = u128 (s128 a).natAbs := by
  split
  case isTrue h =>
    rw [Int.ofNat_natAbs_of_nonpos (signBit_iff.1 h).le, u128_neg, u128_s128]
  case isFalse h =>
    rw [Int.natAbs_of_nonneg (not_lt.1 (mt signBit_iff.2 h)), u128_s128]

/-- Settles O9: the sign bit tells whether the conditional negation negates. -/
theorem absNegatesTheNegative : Obligations.AbsNegatesTheNegative := by
  unfold Obligations.AbsNegatesTheNegative
  simp only [completes_abs_iff]
  exact ⟨rfl, fun a _ h => by rw [signBit, h]; exact BitVec.neg_eq_not_add .., fun a _ h => by rw [signBit, h]; rfl,
    fun a _ => ite_signBit_neg a, fun _ => by decide⟩

/-! ## Multiplier (R69, C7) -/

theorem completes_mul_iff {a b v : Quad} : Completes .mul a b v ↔ a * b = v := by
  rw [completes_iff, Instr.result, wideMul_eq, CmdResult.complete.injEq]

/-- Settles O10: MUL is the product of 128-bit words, whose pattern is that of either reading. -/
theorem mulIsTheLowHalfOfTheProduct : Obligations.MulIsTheLowHalfOfTheProduct := by
  unfold Obligations.MulIsTheLowHalfOfTheProduct
  simp only [completes_mul_iff, u128_mul, u128_s128, u128_toNat, and_self]
  exact ⟨rfl, fun _ _ => trivial, fun a => ⟨BitVec.mul_one a, BitVec.mul_zero⟩, by decide, by decide, by decide, by decide⟩

/-- A register as the number its four words write. -/
theorem toNat_eq_words (x : Quad) : x.toNat =
    (quadWord x 3).toNat * 2 ^ 96 + (quadWord x 2).toNat * 2 ^ 64 + (quadWord x 1).toNat * 2 ^ 32 + (quadWord x 0).toNat :=
  (congrArg BitVec.toNat (quad_eq_words x)).trans (toNat_ofWords ..)

/-- The six products left out have a weight of at least 2^128 each. -/
theorem mulByHalves_eq (a b : Quad) : mulByHalves a b = a * b := by
  apply BitVec.eq_of_toNat_eq
  rw [mulByHalves, BitVec.toNat_ofNat, BitVec.toNat_mul, toNat_eq_words a, toNat_eq_words b]
  simp only [partialProduct]
  generalize (quadWord a 3).toNat = a3
  generalize (quadWord a 2).toNat = a2
  generalize (quadWord a 1).toNat = a1
  generalize (quadWord b 3).toNat = b3
  generalize (quadWord b 2).toNat = b2
  generalize (quadWord b 1).toNat = b1
  rw [← Nat.add_mul_mod_self_left _ (2 ^ 128)
    (a1 * b3 + a2 * b2 + a3 * b1 + (a2 * b3 + a3 * b2) * 2 ^ 32 + a3 * b3 * 2 ^ 64)]
  congr 1
  norm_num
  ring

/-- Settles O58: the ten products and MUL give the product of 128-bit words. -/
theorem tenPartialProductsGiveTheProduct : Obligations.TenPartialProductsGiveTheProduct := fun a b =>
  completes_mul_iff.2 (mulByHalves_eq a b).symm

/-! ## Divider (R70, R71) -/

theorem raises_div_zero (a : Quad) : Raises .div a 0 .overflow := by
  rw [raises_iff (by decide), Instr.result, wideDiv, if_pos rfl]

theorem raises_mod_zero (a : Quad) : Raises .mod a 0 .overflow := by
  rw [raises_iff (by decide), Instr.result, wideMod, if_pos rfl]

/-- The quotient modulo 2^128 is the signed division of 128-bit words. -/
theorem u128_tdiv (a b : Quad) : u128 (Int.tdiv (s128 a) (s128 b)) = a.sdiv b := by
  rw [u128_eq_ofInt, s128_eq_toInt, s128_eq_toInt]
  apply BitVec.eq_of_toInt_eq
  rw [BitVec.toInt_ofInt, BitVec.toInt_sdiv]

/-- The remainder is that of the signed division of 128-bit words, and needs no reduction modulo 2^128. -/
theorem s128_srem (a b : Quad) : s128 (a.srem b) = Int.tmod (s128 a) (s128 b) := by
  simp only [s128_eq_toInt, BitVec.toInt_srem]

theorem completes_div_iff {a b v : Quad} (hb : b ≠ 0) : Completes .div a b v ↔ a.sdiv b = v := by
  rw [completes_iff, Instr.result, wideDiv, if_neg hb, tdiv_eq, u128_tdiv, CmdResult.complete.injEq]

/-- R71's formula with R70's quotient. -/
theorem srem_eq_sub_sdiv_mul (a b : Quad) : a.srem b = a - a.sdiv b * b := by
  rw [← u128_s128 (a.srem b), s128_srem, Int.tmod_def, u128_sub, u128_mul, u128_tdiv, u128_s128, u128_s128, BitVec.mul_comm]

theorem completes_mod_iff {a b v : Quad} (hb : b ≠ 0) : Completes .mod a b v ↔ a.srem b = v := by
  rw [completes_iff, Instr.result, wideMod, if_neg hb, tdiv_eq, u128_sub, u128_mul, u128_tdiv, u128_s128, u128_s128,
    ← srem_eq_sub_sdiv_mul, CmdResult.complete.injEq]

theorem sdiv_eq_zero_of_natAbs_lt {a b : Quad} (h : (s128 a).natAbs < (s128 b).natAbs) : a.sdiv b = 0 := by
  have hq : Int.tdiv (s128 a) (s128 b) = 0 := Int.sign_eq_zero_iff_zero.1 (by rw [Int.sign_tdiv, if_pos h])
  rw [← u128_tdiv, hq]
  rfl

/-- The remainder is 0 or has the dividend's sign. -/
theorem tmod_eq_zero_or_sign (a b : Int) : Int.tmod a b = 0 ∨ (Int.tmod a b).sign = a.sign := by
  by_cases h : b ∣ a
  · exact .inl (Int.tmod_eq_zero_of_dvd h)
  · exact .inr (by rw [Int.sign_tmod, if_neg h])

/-- Settles O11: DIV is the signed division of 128-bit words, and only MIN / −1 leaves the range. -/
theorem divTruncatesTowardZero : Obligations.DivTruncatesTowardZero := by
  have hone : (1 : Quad) ≠ 0 := by decide
  refine ⟨rfl, raises_div_zero, fun a b hb => (completes_div_iff hb).2 (u128_tdiv a b).symm,
    (completes_div_iff (by decide)).2 (by decide +kernel), fun a b hb ha ha' _ _ => ?_,
    (completes_div_iff (by decide)).2 (by decide +kernel), fun b hb => (completes_div_iff hb).2 BitVec.zero_sdiv,
    fun a => (completes_div_iff hone).2 BitVec.sdiv_one, fun a ha => ?_, fun a b h => ?_,
    (completes_div_iff (by decide)).2 (by decide +kernel)⟩
  · have := Int.natAbs_tdiv_le_natAbs (s128 a) (s128 b)
    exact ⟨_, (completes_div_iff hb).2 (u128_tdiv a b).symm, s128_u128 (by omega) (by omega)⟩
  · exact (completes_div_iff ha).2 (BitVec.sdiv_self.trans (if_neg (mt beq_iff_eq.1 ha)))
  · have hb : b ≠ 0 := mt s128_eq_zero.2 (by omega)
    exact (completes_div_iff hb).2 (sdiv_eq_zero_of_natAbs_lt h)

/-- Settles O12: MOD is the remainder of that division. -/
theorem modIsTheRemainderOfDiv : Obligations.ModIsTheRemainderOfDiv := by
  have hone : (1 : Quad) ≠ 0 := by decide
  refine ⟨rfl, raises_mod_zero, fun a b hb => ⟨Int.tmod (s128 a) (s128 b), ?_⟩, fun a b q hb hq => ?_,
    (completes_mod_iff (by decide)).2 (by decide +kernel), fun a => (completes_mod_iff hone).2 BitVec.srem_one,
    fun a ha => (completes_mod_iff ha).2 BitVec.srem_self, (completes_mod_iff (by decide)).2 (by decide +kernel),
    (completes_mod_iff (by decide)).2 (by decide +kernel)⟩
  · have hlt : (Int.tmod (s128 a) (s128 b)).natAbs < (s128 b).natAbs := by
      rw [Int.natAbs_tmod]
      exact Nat.mod_lt _ (Int.natAbs_pos.2 (mt s128_eq_zero.1 hb))
    rw [← s128_srem, u128_s128, s128_srem]
    exact ⟨(completes_mod_iff hb).2 rfl, by rw [Int.tmod_def, Int.mul_comm], rfl, hlt, tmod_eq_zero_or_sign _ _⟩
  · rw [completes_div_iff hb] at hq
    rw [completes_mod_iff hb, ← hq, srem_eq_sub_sdiv_mul]

/-! ## The divider's tiers (R72) -/

theorem applySign_eq (negative : Bool) (q : Nat) : applySign negative q = u128 (if negative then -q else q) := by
  cases negative <;> rfl

/-- The truncated quotient from the signs and the magnitudes. -/
theorem tdiv_eq_ite (x y : Int) :
    Int.tdiv x y = if decide (x < 0) ^^ decide (y < 0) then -((x.natAbs / y.natAbs : Nat) : Int) else (x.natAbs / y.natAbs : Nat) := by
  cases x <;> cases y <;> simp [Int.tdiv, not_lt.2 (Int.natCast_nonneg _)]

theorem applySign_quotient (a b : Quad) : applySign (signBit a ^^ signBit b) (magnitude a / magnitude b) = a.sdiv b := by
  have hsign (x : Quad) : signBit x = decide (s128 x < 0) := by rw [Bool.eq_iff_iff, signBit_iff, decide_eq_true_iff]
  rw [← u128_tdiv, tdiv_eq_ite, applySign_eq, hsign, hsign, magnitude, magnitude]

/-- One digit of schoolbook division: quotient and remainder of the digits above, then the next digit. -/
theorem mul_add_divMod (x c y : Nat) {d : Nat} (hd : 0 < d) :
    (x * c + y) / d = x / d * c + (x % d * c + y) / d ∧ (x * c + y) % d = (x % d * c + y) % d := by
  have h : x * c + y = x % d * c + y + d * (x / d * c) := by
    conv_lhs => rw [← Nat.mod_add_div x d]
    ring
  rw [h, Nat.add_mul_div_left _ _ hd, Nat.add_mul_mod_self_left, Nat.add_comm]
  exact ⟨rfl, rfl⟩

/-- Tier (b): two steps of schoolbook division, with digits of 32 bits. -/
theorem chunkDivide_eq (n : Nat) {d : Nat} (hd : 0 < d) : chunkDivide n d = n / d := by
  have hlo : n = n / 2 ^ 32 * 2 ^ 32 + n % 2 ^ 32 := (Nat.div_add_mod' n _).symm
  have hhi : n / 2 ^ 32 = n / 2 ^ 64 * 2 ^ 32 + n / 2 ^ 32 % 2 ^ 32 := by omega
  obtain ⟨hq1, hr1⟩ := mul_add_divMod (n / 2 ^ 64) (2 ^ 32) (n / 2 ^ 32 % 2 ^ 32) hd
  obtain ⟨hq0, -⟩ := mul_add_divMod (n / 2 ^ 32) (2 ^ 32) (n % 2 ^ 32) hd
  rw [← hhi] at hq1 hr1
  rw [← hlo, hq1, hr1] at hq0
  rw [hq0]
  simp only [chunkDivide]
  omega

/-- Tier (c) keeps `r < d`; with i bits to come, what it still adds to q is the quotient of r followed by those bits. -/
theorem longDivideLoop_quotient {n d i q r : Nat} (hr : r < d) :
    (longDivideLoop n d i q r).1 = q + (r * 2 ^ i + n % 2 ^ i) / d := by
  induction i generalizing q r with
  | zero => simp [longDivideLoop, Nat.mod_one, Nat.div_eq_of_lt hr]
  | succ i ih =>
    have hbits : r * 2 ^ (i + 1) + n % 2 ^ (i + 1) = (2 * r + n / 2 ^ i % 2) * 2 ^ i + n % 2 ^ i := by
      rw [Nat.mod_pow_succ]; ring
    rw [hbits]
    simp only [longDivideLoop]
    generalize hr' : 2 * r + n / 2 ^ i % 2 = r'
    split
    case isTrue hle =>
      have hsub : r' * 2 ^ i + n % 2 ^ i = (r' - d) * 2 ^ i + n % 2 ^ i + d * 2 ^ i := by
        conv_lhs => rw [← Nat.sub_add_cancel hle]
        ring
      rw [ih (by omega), hsub, Nat.add_mul_div_left _ _ (by omega)]
      omega
    case isFalse hlt => exact ih (not_le.1 hlt)

theorem longDivide_eq {n d : Nat} (hn : n < 2 ^ 128) (hd : 0 < d) : longDivide n d = n / d := by
  rw [longDivide, longDivideLoop_quotient hd, Nat.mod_eq_of_lt hn, Nat.zero_mul, Nat.zero_add, Nat.zero_add]

theorem magnitude_lt (x : Quad) : magnitude x < 2 ^ 128 := by
  have := s128_bounds x
  unfold magnitude
  omega

theorem magnitude_pos {x : Quad} (h : x ≠ 0) : 0 < magnitude x := Int.natAbs_pos.2 (mt s128_eq_zero.1 h)

/-- Every tier divides the magnitudes. -/
theorem dividerQuotient_eq {a b : Quad} (hb : b ≠ 0) : dividerQuotient a b = a.sdiv b := by
  rw [dividerQuotient, chunkDivide_eq _ (magnitude_pos hb), longDivide_eq (magnitude_lt a) (magnitude_pos hb), ite_self, ite_self,
    applySign_quotient]

/-- Settles O57: each tier gives the quotient of the magnitudes. -/
theorem dividerTiersGiveTheQuotient : Obligations.DividerTiersGiveTheQuotient := by
  refine ⟨fun a b hb => ?_, fun n d => longDivide_eq, fun n d _ hd _ => chunkDivide_eq n hd, fun a b hb => ?_⟩
  · rw [completes_div_iff hb, dividerQuotient_eq hb]
  · rw [completes_div_iff hb, longDivide_eq (magnitude_lt a) (magnitude_pos hb), applySign_quotient]

/-! ## Integer square root (R73) -/

/-- Below 2^128 the model's root is the library's. -/
theorem isqrtNat_eq_sqrt {n : Nat} (h : n < 2 ^ 128) : isqrtNat n = Nat.sqrt n :=
  sqrt_unique (isqrtNat_spec h).1 (isqrtNat_spec h).2 (Nat.sqrt_le' n) (Nat.lt_succ_sqrt' n)

theorem raises_isqrt {a : Quad} (h : s128 a < 0) (b : Quad) : Raises .isqrt a b .domain := by
  rw [raises_iff (by decide), Instr.result, wideIsqrt, if_pos h]

theorem completes_isqrt_iff {a b v : Quad} : Completes .isqrt a b v ↔ wideIsqrt a = .complete v := completes_iff

/-- ISQRT on the register that holds n. -/
theorem wideIsqrt_u128 {n : Nat} (h : n < 2 ^ 127) : wideIsqrt (u128 n) = .complete (u128 (Nat.sqrt n)) := by
  rw [wideIsqrt, s128_u128 (by omega) (by omega), if_neg (by omega), Int.toNat_natCast, isqrtNat_eq_sqrt (by omega)]

/-- The root of a value below 2^128 fits a register as a non-negative value. -/
theorem s128_u128_sqrt {n : Nat} (h : n < 2 ^ 128) : s128 (u128 (Nat.sqrt n)) = Nat.sqrt n := by
  have : Nat.sqrt n < 2 ^ 64 := Nat.sqrt_lt'.2 (by omega)
  exact s128_u128 (by omega) (by omega)

/-- Settles O13: the loop's root is the library's. -/
theorem isqrtIsTheFloorOfTheRoot : Obligations.IsqrtIsTheFloorOfTheRoot := by
  refine ⟨rfl, fun a b h => raises_isqrt h b, fun a b h => ?_, fun b => ?_⟩
  · obtain ⟨n, hn⟩ := Int.eq_ofNat_of_zero_le h
    have hlt : n < 2 ^ 127 := by have := (s128_bounds a).2; omega
    have hres : wideIsqrt a = .complete (u128 (Nat.sqrt n)) := by rw [← wideIsqrt_u128 hlt, ← hn, u128_s128]
    refine ⟨Nat.sqrt n, completes_isqrt_iff.2 hres, s128_u128_sqrt (by omega), ?_, ?_⟩
    · rw [hn]; exact_mod_cast Nat.sqrt_le' n
    · rw [hn]; exact_mod_cast Nat.lt_succ_sqrt' n
  · simp only [completes_isqrt_iff]
    exact ⟨by decide +kernel, by decide +kernel, by decide +kernel, by decide +kernel, by decide +kernel, by decide +kernel,
      raises_isqrt (by decide) b⟩

/-! ## Heron's method (R73) -/

/-- A step from any positive value goes to the root or above. -/
theorem sqrt_le_heronNext (n : Nat) {x : Nat} (hx : 0 < x) : Nat.sqrt n ≤ heronNext n x := by
  have hs := Nat.sqrt_le' n
  generalize Nat.sqrt n = r at hs
  have hdiv : 2 * r - x ≤ n / x := by
    rw [Nat.le_div_iff_mul_le hx]
    refine le_trans ?_ hs
    rcases le_total (2 * r) x with h | h
    · simp [Nat.sub_eq_zero_of_le h]
    · obtain ⟨y, hy⟩ := Nat.exists_eq_add_of_le h
      have hsq := four_mul_le_sq_add x y
      rw [hy, Nat.add_sub_cancel_left]
      rw [← hy, mul_pow] at hsq
      linarith
  unfold heronNext
  omega

/-- Above the root a step at least halves the distance to it. -/
theorem heronNext_le {n x : Nat} (hx : Nat.sqrt n < x) : heronNext n x ≤ (x + Nat.sqrt n) / 2 := by
  have hdiv : n / x < Nat.sqrt n + 1 := by
    have h := Nat.lt_succ_sqrt n
    exact Nat.div_lt_of_lt_mul (h.trans_le (Nat.mul_le_mul_right _ hx))
  unfold heronNext
  omega

theorem heronNext_lt {n x : Nat} (hx : Nat.sqrt n < x) : heronNext n x < x := by
  have := heronNext_le hx
  omega

/-- At the root a step stays or goes one up. -/
theorem heronNext_sqrt_le {n : Nat} (hn : 0 < n) : heronNext n (Nat.sqrt n) ≤ Nat.sqrt n + 1 := by
  have hs := Nat.sqrt_pos.2 hn
  have h := Nat.lt_succ_sqrt' n
  have hdiv : n / Nat.sqrt n < Nat.sqrt n + 3 := Nat.div_lt_of_lt_mul (by rw [Nat.succ_eq_add_one] at h; nlinarith)
  unfold heronNext
  omega

/-- One above the root a step comes back to it. -/
theorem heronNext_sqrt_add_one (n : Nat) : heronNext n (Nat.sqrt n + 1) = Nat.sqrt n := by
  have hle := heronNext_le (Nat.lt_succ_self (Nat.sqrt n))
  have hge := sqrt_le_heronNext n (Nat.succ_pos (Nat.sqrt n))
  simp only [Nat.succ_eq_add_one] at hle hge
  omega

/-- Two values that step to each other: the smaller is the root. -/
theorem min_eq_sqrt_of_oscillation {n x y : Nat} (hx : 0 < x) (hy : 0 < y) (hxy : heronNext n x = y) (hyx : heronNext n y = x) :
    min x y = Nat.sqrt n := by
  have hsx := sqrt_le_heronNext n hy
  have hsy := sqrt_le_heronNext n hx
  rw [hyx] at hsx
  rw [hxy] at hsy
  rcases hsx.eq_or_lt with rfl | hltx
  · exact min_eq_left hsy
  · rcases hsy.eq_or_lt with rfl | hlty
    · exact min_eq_right hsx
    · exact absurd (hxy ▸ heronNext_lt hltx) (hyx ▸ heronNext_lt hlty).asymm

/-- From the root the loop ends within two more iterations. -/
theorem heronLoop_sqrt {n cap : Nat} {prev : Option Nat} (hn : 0 < n) (hcap : 2 ≤ cap) :
    heronLoop n cap prev (Nat.sqrt n) = Nat.sqrt n := by
  obtain ⟨c, rfl⟩ := Nat.exists_eq_add_of_le' hcap
  have hge := sqrt_le_heronNext n (Nat.sqrt_pos.2 hn)
  rcases hge.eq_or_lt with h | h
  · rw [heronLoop, if_pos h.symm]
  · have hup : heronNext n (Nat.sqrt n) = Nat.sqrt n + 1 := le_antisymm (heronNext_sqrt_le hn) h
    rw [heronLoop, hup, if_neg (Nat.succ_ne_self _)]
    split
    · exact min_eq_left (Nat.le_succ _)
    · rw [heronLoop, heronNext_sqrt_add_one, if_neg (Nat.succ_ne_self _).symm, if_pos rfl]
      exact min_eq_right (Nat.le_succ _)

/-- The loop, at the root or above it with a distance below 2^k, ends at the root within k + 2 iterations. The value before the
present one, if any, stepped to it. -/
theorem heronLoop_eq_sqrt {n k cap x : Nat} {prev : Option Nat} (hn : 0 < n) (hcap : k + 2 ≤ cap) (hx : Nat.sqrt n ≤ x)
    (hdist : x < Nat.sqrt n + 2 ^ k) (hprev : ∀ p, prev = some p → heronNext n p = x) :
    heronLoop n cap prev x = Nat.sqrt n := by
  induction k generalizing cap x prev with
  | zero =>
    obtain rfl : x = Nat.sqrt n := by omega
    exact heronLoop_sqrt hn hcap
  | succ k ih =>
    rcases hx.eq_or_lt with rfl | hlt
    · exact heronLoop_sqrt hn (by omega)
    · obtain ⟨c, rfl⟩ := Nat.exists_eq_add_of_le' (show 1 ≤ cap by omega)
      have hpos : 0 < Nat.sqrt n := Nat.sqrt_pos.2 hn
      have hge := sqrt_le_heronNext n (hpos.trans hlt)
      have hhalf := heronNext_le hlt
      rw [heronLoop, if_neg (heronNext_lt hlt).ne]
      split
      case isTrue hosc => exact min_eq_sqrt_of_oscillation (hpos.trans hlt) (hpos.trans_le hge) rfl (hprev _ hosc)
      case isFalse => exact ih (by omega) hge (by omega) fun p hp => by cases hp; rfl

/-- The seed is at least the root over √2: n has at most one bit more than the seed's square. -/
theorem lt_two_mul_heronSeed_sq (n : Nat) : n < 2 * heronSeed n * heronSeed n :=
  calc n < 2 ^ (Nat.log2 n + 1) := Nat.lt_log2_self
    _ ≤ 2 ^ (1 + (Nat.log2 n + 1) / 2 + (Nat.log2 n + 1) / 2) := Nat.pow_le_pow_right (by decide) (by omega)
    _ = 2 * heronSeed n * heronSeed n := by rw [pow_add, pow_add, pow_one, heronSeed]

/-- The first step from the seed of a value below 2^127 gives at most 64 bits. -/
theorem heronNext_seed_lt {n : Nat} (h : n < 2 ^ 127) : heronNext n (heronSeed n) < 2 ^ 64 := by
  have hlog : Nat.log2 n < 127 := by
    rcases Nat.eq_zero_or_pos n with rfl | hn
    · decide
    · exact (Nat.log2_lt hn.ne').2 h
  have hseed : heronSeed n ≤ 2 ^ 63 := Nat.pow_le_pow_right (by decide) (by omega)
  have hdiv : n / heronSeed n < 2 * heronSeed n := Nat.div_lt_of_lt_mul (Nat.mul_comm _ _ ▸ lt_two_mul_heronSeed_sq n)
  unfold heronNext
  omega

/-- Heron's method finds the root: one step from the seed, at most 64 to the root and two there. -/
theorem heronSqrt_eq_sqrt {n cap : Nat} (h : n < 2 ^ 127) (hcap : 128 ≤ cap) : heronSqrt cap n = Nat.sqrt n := by
  unfold heronSqrt
  split
  case isTrue h0 => rw [h0, Nat.sqrt_zero]
  case isFalse h0 =>
    have hn : 0 < n := Nat.pos_of_ne_zero h0
    have hseed : 0 < heronSeed n := Nat.pow_pos (by decide)
    have hge := sqrt_le_heronNext n hseed
    have hlt := heronNext_seed_lt h
    obtain ⟨c, rfl⟩ := Nat.exists_eq_add_of_le' (show 1 ≤ cap by omega)
    rw [heronLoop, if_neg (by simp : ¬none = some _)]
    split
    case isTrue hfix => rw [← min_eq_sqrt_of_oscillation hseed hseed hfix hfix, min_self]
    case isFalse => exact heronLoop_eq_sqrt (k := 64) hn (by omega) hge (by omega) fun p hp => by cases hp; rfl

/-- Settles O14: ISQRT and Heron's method both give the library's root. -/
theorem heronMethodGivesIsqrt : Obligations.HeronMethodGivesIsqrt := fun n cap hn hcap b => by
  rw [completes_isqrt_iff, wideIsqrt_u128 hn, heronSqrt_eq_sqrt hn hcap]

/-! ## Power-of-ten scaler (R74) -/

theorem encode_scl10 {k : Nat} (hk : k < 256) : encode (.scl10 k) = BitVec.ofNat 32 (k * 2 ^ 16 + 9) := by
  apply BitVec.eq_of_toNat_eq
  simp only [encode, packWord, Instr.opcode, Instr.rmBits, Instr.immBits, toNat_append_eq, BitVec.ofNat_eq_ofNat, BitVec.toNat_ofNat]
  omega

theorem completes_scl10_iff {k : Nat} {a b v : Quad} (hk : k ≤ 38) : Completes (.scl10 k) a b v ↔ a * p10 k = v := by
  have htable : ¬k > Config.lastPower := not_lt.2 hk
  rw [completes_iff, Instr.result, wideScl10, if_neg htable, Nat.cast_mul, u128_mul, u128_toNat, u128_toNat,
    CmdResult.complete.injEq]

theorem decode_scl10_error {k : Nat} (hk : 38 < k) (hk' : k < 256) : ∃ e, decode (encode (.scl10 k)) = .error e := by
  obtain ⟨hop, -, himm, -⟩ := encodedFields (.scl10 k)
  rw [decode_of_scl10 hop, decodeScl10_error_iff, himm, Instr.immBits, BitVec.toNat_ofNat, Nat.mod_eq_of_lt hk']
  exact .inr (.inr hk)

/-- Settles O15: the table's entry is the pattern of the power, and a word with k above 38 does not decode. -/
theorem scl10MultipliesByAPowerOfTen : Obligations.Scl10MultipliesByAPowerOfTen := by
  refine ⟨fun k hk => encode_scl10 (by omega), fun k a b hk => ?_, fun k s hk hk' hw => ?_, fun a b => ?_, fun b => ?_⟩
  · rw [completes_scl10_iff hk, completes_scl10_iff hk, u128_mul, u128_mul, u128_toNat, u128_toNat, u128_s128]
    exact ⟨rfl, by rw [p10_eq hk, ← u128_natCast]; push_cast; rfl⟩
  · rw [← encode_scl10 hk'] at hw
    obtain ⟨e, he⟩ := decode_scl10_error hk hk'
    exact illegalWordsAreThoseOfR60.2 s e (hw ▸ he)
  · exact (completes_scl10_iff (by decide)).2 (BitVec.mul_one ..)
  · rw [completes_scl10_iff le_rfl, completes_scl10_iff le_rfl, completes_scl10_iff (by decide), completes_scl10_iff (by decide)]
    decide +kernel

end Sys2Proof.Machine

/-! SUPPORT. The family 41_scaled_decimal.md: DEC and ENC (R85, R86), the helpers' arithmetic (R87 to R91, R97, R99), each decimal command
as an operation on decoded operands (R94 to R98, R100), and what these operations do to the values (R88, R101). -/

namespace Sys2Proof.Machine

/-! ## DEC and ENC (R85, R86) -/

theorem dec_eq_none_iff {x : Quad} : dec x = none ↔ 28 < (scaleField x).toNat ∨ reservedZero x = false := by
  unfold dec
  split <;> simp_all [Config.maxScale]

theorem reservedZero_eq_false_iff {x : Quad} :
    reservedZero x = false ↔ x.extractLsb' 96 16 ≠ 0 ∨ x.extractLsb' 120 7 ≠ 0 := by
  rw [reservedZero, Bool.and_eq_false_iff, beq_eq_false_iff_ne, beq_eq_false_iff_ne]
  rfl

/-- Settles O17, from the fields of a legal image and the two inverse laws. -/
theorem decAndEncAreInverse : Obligations.DecAndEncAreInverse := by
  refine ⟨fun x => ?_, fun x d h => ⟨?_, enc_dec h⟩, fun d hm hs => ⟨dec_enc hm hs, toNat_enc d hm hs⟩⟩
  · rw [dec_eq_none_iff, reservedZero_eq_false_iff, scaleField]
  · obtain ⟨-, -, hd⟩ := dec_eq_some.1 h
    exact hd

/-! ## Values (R25, R88) -/

theorem Dec.abs_value (d : Dec) : |d.value| = d.mant / 10 ^ d.scale := by
  unfold Dec.value
  split <;> simp [abs_div]

theorem Dec.value_eq_zero_iff {d : Dec} : d.value = 0 ↔ d.mant = 0 := by
  rw [← abs_eq_zero, Dec.abs_value, div_eq_zero_iff]
  simp

theorem Dec.value_neg_iff {d : Dec} (hm : d.mant ≠ 0) : d.value < 0 ↔ d.neg = true := by
  have hpos : (0 : ℚ) < d.mant / 10 ^ d.scale := by positivity
  unfold Dec.value
  rw [mul_div_assoc]
  split <;> simp_all [hpos.le]

/-- The value of a decimal with its sign bit inverted. -/
theorem Dec.value_not_neg (d : Dec) : Dec.value { d with neg := !d.neg } = -d.value := by
  unfold Dec.value
  cases d.neg <;> simp [neg_div]

/-- Sign by XOR, mantissas multiplied, scales added: the value of the product. -/
theorem Dec.value_mul (x y : Dec) : Dec.value ⟨x.neg ^^ y.neg, x.mant * y.mant, x.scale + y.scale⟩ = x.value * y.value := by
  unfold Dec.value
  rw [pow_add]
  cases x.neg <;> cases y.neg <;> simp [div_mul_div_comm, neg_div]

/-- The decimal of a signed integer at a scale. -/
theorem Dec.value_of_int (v : Int) (s : Nat) : Dec.value ⟨decide (v < 0), v.natAbs, s⟩ = v / 10 ^ s := by
  unfold Dec.value
  by_cases h : v < 0
  · simp [h, Nat.cast_natAbs, abs_of_neg h]
  · simp [h, Nat.cast_natAbs, abs_of_nonneg (not_lt.1 h)]

/-- A canonical mantissa at a higher scale than another of the same magnitude would end in a zero digit. -/
theorem Dec.Canonical.scale_le {d e : Dec} (he : e.Canonical) (h : d.mant * 10 ^ e.scale = e.mant * 10 ^ d.scale) :
    e.scale ≤ d.scale := by
  by_contra hlt
  obtain ⟨k, hk⟩ := Nat.exists_eq_add_of_lt (not_le.1 hlt)
  obtain ⟨-, hdigit⟩ := he
  have hmant : e.mant = d.mant * 10 ^ k * 10 := by
    refine Nat.eq_of_mul_eq_mul_right (show 0 < 10 ^ d.scale by positivity) ?_
    rw [← h, hk]; ring
  exact hdigit (by omega) (by rw [hmant, Nat.mul_mod_left])

/-- A value has one canonical decimal. -/
theorem Dec.Canonical.eq_of_value_eq {d e : Dec} (hd : d.Canonical) (he : e.Canonical) (h : d.value = e.value) : d = e := by
  have hmag : d.mant * 10 ^ e.scale = e.mant * 10 ^ d.scale := by
    have := congrArg abs h
    rw [Dec.abs_value, Dec.abs_value, div_eq_div_iff (by positivity) (by positivity)] at this
    exact_mod_cast this
  have hscale : d.scale = e.scale := le_antisymm (hd.scale_le hmag.symm) (he.scale_le hmag)
  have hmant : d.mant = e.mant := Nat.eq_of_mul_eq_mul_right (by positivity) (hscale ▸ hmag)
  have hneg : d.neg = e.neg := by
    by_cases hm : d.mant = 0
    · rw [(hd.1 hm).1, (he.1 (hmant ▸ hm)).1]
    · rw [Bool.eq_iff_iff, ← Dec.value_neg_iff hm, ← Dec.value_neg_iff (hmant ▸ hm), h]
  obtain ⟨g, m, s⟩ := d
  obtain ⟨g', m', s'⟩ := e
  exact Dec.mk.injEq .. |>.mpr ⟨hneg, hmant, hscale⟩

/-- Settles O19: NORMALIZE keeps the value, and a value has one canonical decimal. -/
theorem equalValuesNormalizeAlike : Obligations.EqualValuesNormalizeAlike := fun x y =>
  ⟨fun h => (decNormalize_canonical x).eq_of_value_eq (decNormalize_canonical y) (by simpa using h),
    fun h => by simpa using congrArg Dec.value h⟩

/-- A canonical decimal of a decimal's value is its normal form. -/
theorem Dec.Canonical.eq_decNormalize {d x : Dec} (hd : d.Canonical) (h : d.value = x.value) : d = decNormalize x :=
  hd.eq_of_value_eq (decNormalize_canonical x) (by rw [h, decNormalize_value])

/-! ## Narrowing (R89 to R91) -/

theorem rhu_eq_div (m n : Nat) : rhu m n = (2 * m + 10 ^ n) / (2 * 10 ^ n) := by
  obtain ⟨hlt, hle⟩ := rhu_spec m n
  refine (Nat.div_eq_of_lt_le ?_ ?_).symm
  · calc rhu m n * (2 * 10 ^ n) = 2 * rhu m n * 10 ^ n := by ring
      _ ≤ 2 * m + 10 ^ n := hle
  · calc 2 * m + 10 ^ n < (2 * rhu m n + 1) * 10 ^ n + 10 ^ n := by omega
      _ = (rhu m n + 1) * (2 * 10 ^ n) := by ring

theorem fit_succ_of_le {s m : Nat} (h : 2 ^ 96 ≤ m) : fit (s + 1) m = fit s (rhu m 1) := if_pos h

/-- Settles O20. -/
theorem rhuRoundsHalfUpAndFitNarrows : Obligations.RhuRoundsHalfUpAndFitNarrows :=
  ⟨rhu_eq_div, rhu_zero, fun _ _ => fit_of_lt, fun _ _ => fit_succ_of_le, fun _ => rfl,
    fun s m => ⟨fit_mant_lt s m, fit_scale_le s m⟩⟩

theorem capTrunc_of_le {m : Nat} (h : 2 ^ 96 ≤ m) : capTrunc m = m % 10 ^ capDigits m := if_neg (not_lt.2 h)

/-- CAPTRUNC keeps at least 28 digits, 10^28 being below 2^96 (R91). -/
theorem le_capDigits {m : Nat} (h : 2 ^ 96 ≤ m) : 28 ≤ capDigits m :=
  capDigits_largest h ((Nat.mod_lt m (by norm_num)).trans (by norm_num))

/-- The digits that CAPTRUNC keeps are fewer than a number that does not fit has. -/
theorem capDigits_le_of_lt {m k : Nat} (hm : 2 ^ 96 ≤ m) (h : m < 10 ^ (k + 1)) : capDigits m ≤ k := by
  by_contra hlt
  have hall : m < 10 ^ capDigits m := h.trans_le (Nat.pow_le_pow_right (by norm_num) (by omega))
  have := capDigits_fits m
  rw [Nat.mod_eq_of_lt hall] at this
  omega

theorem dropLeadingDigit_lt {m : Nat} (h : 2 ^ 96 ≤ m) : dropLeadingDigit m < m :=
  (Nat.mod_lt m (by positivity)).trans_le (Nat.pow_log_le_self 10 (by omega))

/-- A number without its leading digit has the low digits it had. -/
theorem dropLeadingDigit_mod {m k : Nat} (h : k ≤ Nat.log 10 m) : dropLeadingDigit m % 10 ^ k = m % 10 ^ k :=
  Nat.mod_mod_of_dvd m (Nat.pow_dvd_pow 10 h)

/-- CAPTRUNC drops the leading digit of every number that does not fit, and goes on with the rest. -/
theorem capTrunc_dropLeadingDigit {m : Nat} (h : 2 ^ 96 ≤ m) : capTrunc (dropLeadingDigit m) = capTrunc m := by
  have hlog : capDigits m ≤ Nat.log 10 m := capDigits_le_of_lt h (Nat.lt_pow_succ_log_self (by norm_num) m)
  rw [capTrunc_of_le h]
  by_cases hfit : dropLeadingDigit m < 2 ^ 96
  · have : capDigits m = Nat.log 10 m := le_antisymm hlog (capDigits_largest h hfit)
    rw [capTrunc_of_lt hfit, this, dropLeadingDigit]
  · have hrest : 2 ^ 96 ≤ dropLeadingDigit m := not_lt.1 hfit
    have hlog' : capDigits (dropLeadingDigit m) ≤ Nat.log 10 m :=
      capDigits_le_of_lt hrest ((Nat.mod_lt m (by positivity)).trans (Nat.pow_lt_pow_right (by norm_num) (Nat.lt_succ_self _)))
    have heq : capDigits (dropLeadingDigit m) = capDigits m :=
      le_antisymm (capDigits_largest h (dropLeadingDigit_mod hlog' ▸ capDigits_fits _))
        (capDigits_largest hrest (dropLeadingDigit_mod hlog ▸ capDigits_fits _))
    rw [capTrunc_of_le hrest, heq, dropLeadingDigit_mod hlog]

/-- CAPTRUNC as a loop on the leading digit, by induction on the number: what is left without that digit is smaller. -/
theorem capTrunc_eq_iterate (m : Nat) : ∃ j, capTrunc m = dropLeadingDigit^[j] m ∧ dropLeadingDigit^[j] m < 2 ^ 96 ∧
    ∀ i, i < j → 2 ^ 96 ≤ dropLeadingDigit^[i] m := by
  induction m using Nat.strong_induction_on with
  | _ m ih =>
    by_cases hfit : m < 2 ^ 96
    · exact ⟨0, capTrunc_of_lt hfit, hfit, fun i hi => absurd hi (Nat.not_lt_zero i)⟩
    · have hm : 2 ^ 96 ≤ m := not_lt.1 hfit
      obtain ⟨j, heq, hlt, hbefore⟩ := ih _ (dropLeadingDigit_lt hm)
      refine ⟨j + 1, (capTrunc_dropLeadingDigit hm).symm.trans heq, hlt, fun i hi => ?_⟩
      cases i with
      | zero => exact hm
      | succ i => exact hbefore i (Nat.lt_of_succ_lt_succ hi)

/-- Settles O21. -/
theorem capTruncDropsLeadingDigits : Obligations.CapTruncDropsLeadingDigits :=
  ⟨fun _ => capTrunc_of_lt,
    fun m h => ⟨capDigits m, le_capDigits h, capTrunc_of_le h, capDigits_fits m, fun _ => capDigits_largest h⟩,
    capTrunc_eq_iterate⟩

/-! ## Pre-reduction and scale-up (R97, R99) -/

theorem preReduce_of_le {x y : Dec} (h : x.scale + y.scale ≤ 28) : preReduce x y = (x, y) := by
  simp [preReduce, reduction_eq_zero h]

/-- The odd digit of the excess comes off the operand with the larger scale. -/
theorem reduction_split (sa sb : Nat) :
    (sb ≤ sa → (reduction sa sb).1 = (reduction sa sb).2 ∨ (reduction sa sb).1 = (reduction sa sb).2 + 1) ∧
    (sa < sb → (reduction sa sb).2 = (reduction sa sb).1 ∨ (reduction sa sb).2 = (reduction sa sb).1 + 1) ∧
    (sa = sb → (reduction sa sb).1 = (reduction sa sb).2) := by
  unfold reduction Config.maxScale
  split <;> simp only <;> omega

/-- Settles O22: `ra` and `rb` are the two reductions. -/
theorem preReductionSplitsTheExcess : Obligations.PreReductionSplitsTheExcess := by
  intro x y hx hy
  refine ⟨preReduce_of_le, fun hsum => ?_⟩
  obtain ⟨htotal, hra, hrb⟩ := reduction_spec hx hy
  obtain ⟨hge, hlt, heq⟩ := reduction_split x.scale y.scale
  refine ⟨_, _, htotal, hra, hrb, hge, hlt, heq, rfl, ?_⟩
  simp only [preReduce]
  omega

theorem scale_le_targetPrecision (extra : Nat) {sa : Nat} (sb : Nat) (ha : sa ≤ 28) : sa ≤ targetPrecision extra sa sb := by
  simp only [targetPrecision, Config.maxScale]; omega

theorem targetPrecision_le (extra sa sb : Nat) : targetPrecision extra sa sb ≤ 28 := Nat.min_le_right _ _

/-- The scale-up takes the wanted exponent where that keeps the dividend in range. -/
theorem scaleUpExponent_eq {extra : Nat} {x y : Dec}
    (h : x.mant * 10 ^ (targetPrecision extra x.scale y.scale + y.scale - x.scale) ≤ Config.wideLimit) :
    scaleUpExponent extra x y = targetPrecision extra x.scale y.scale + y.scale - x.scale := by
  refine le_antisymm (scaleUpExponent_le extra x y) (not_lt.1 fun hlt => ?_)
  have hstop := scaleUpLoop_stop (ma := x.mant) (j := 0) (by rw [Nat.zero_add]; exact hlt)
  have hmono : x.mant * 10 ^ (scaleUpExponent extra x y + 1) ≤ _ :=
    Nat.mul_le_mul_left x.mant (Nat.pow_le_pow_right (by norm_num) hlt)
  exact absurd (hstop.trans_le hmono) (not_lt.2 h)

/-- A non-zero dividend needs no power beyond the table's last (R99). -/
theorem scaleUpExponent_le_lastPower {extra : Nat} {x y : Dec} (hx : x.mant < 2 ^ 96) (hm : x.mant ≠ 0) :
    scaleUpExponent extra x y ≤ 38 := by
  by_contra hlt
  have hpow : 10 ^ 39 ≤ 10 ^ scaleUpExponent extra x y := Nat.pow_le_pow_right (by norm_num) (by omega)
  have hle := Nat.le_mul_of_pos_left (10 ^ scaleUpExponent extra x y) (Nat.pos_of_ne_zero hm)
  have hbound := scaleUp_dividend_le extra y hx
  omega

/-- Settles O23: `j` is the exponent that the loop reaches. -/
theorem scaleUpStopsBeforeTheWideIntegerLimit : Obligations.ScaleUpStopsBeforeTheWideIntegerLimit := by
  intro extra x y hx hsx hsy
  have hp := scale_le_targetPrecision extra y.scale hsx
  have hp' := targetPrecision_le extra x.scale y.scale
  refine ⟨targetPrecision extra x.scale y.scale, targetPrecision extra x.scale y.scale + y.scale - x.scale, scaleUpExponent extra x y,
    rfl, by omega, by omega, scaleUpExponent_le extra x y, rfl, scaleUp_dividend_le extra y hx, fun hlt => ?_,
    scaleUpExponent_le_lastPower hx, fun hm => scaleUpExponent_eq (by simp [hm])⟩
  exact scaleUpLoop_stop (j := 0) (by rw [Nat.zero_add]; exact hlt)

/-! ## Decimal commands on decoded operands (R94 to R98, R100) -/

/-- The quotient of DDIV, settled and normalized: the decimal it writes when the divisor is not zero (R100). -/
def decQuotient (extra : Nat) (x y : Dec) : Dec :=
  decNormalize ⟨x.neg ^^ y.neg, (settleQuotient ((scaleUp extra x y).1 / y.mant) (scaleUp extra x y).2).1,
    (settleQuotient ((scaleUp extra x y).1 / y.mant) (scaleUp extra x y).2).2⟩

theorem decDiv_of_zero {extra : Nat} {x y : Dec} (h : y.mant = 0) : decDiv extra x y = .raise .overflow := if_pos h

theorem decDiv_of_ne_zero {extra : Nat} {x y : Dec} (h : y.mant ≠ 0) : decDiv extra x y = .complete (enc (decQuotient extra x y)) :=
  if_neg h

theorem withDecs_of_dec {a b : Quad} {x y : Dec} (ha : dec a = some x) (hb : dec b = some y) (f : Dec → Dec → CmdResult) :
    withDecs a b f = f x y := by
  rw [withDecs, withDec_of_dec ha, withDec_of_dec hb]

theorem withDec_of_none {a : Quad} (h : dec a = none) (f : Dec → CmdResult) : withDec a f = .raise .badOpnd := by
  rw [withDec, h]

/-- A malformed operand is reported, whichever of the two it is. -/
theorem withDecs_of_none {a b : Quad} (h : dec a = none ∨ dec b = none) (f : Dec → Dec → CmdResult) :
    withDecs a b f = .raise .badOpnd := by
  cases ha : dec a with
  | none => exact withDec_of_none ha _
  | some x =>
    have hb : dec b = none := h.resolve_left (by simp [ha])
    rw [withDecs, withDec_of_dec ha, withDec_of_none hb]

/-- A one-operand decimal command that completes has decoded its operand. -/
theorem withDec_eq_complete {a : Quad} {f : Dec → CmdResult} {v : Quad} (h : withDec a f = .complete v) :
    ∃ x, dec a = some x ∧ f x = .complete v := by
  cases ha : dec a with
  | none => rw [withDec_of_none ha] at h; cases h
  | some x => exact ⟨x, rfl, (withDec_of_dec ha f).symm.trans h⟩

theorem withDecs_eq_complete {a b : Quad} {f : Dec → Dec → CmdResult} {v : Quad} (h : withDecs a b f = .complete v) :
    ∃ x y, dec a = some x ∧ dec b = some y ∧ f x y = .complete v := by
  obtain ⟨x, ha, h⟩ := withDec_eq_complete h
  obtain ⟨y, hb, h⟩ := withDec_eq_complete h
  exact ⟨x, y, ha, hb, h⟩

theorem completes_dnorm {a : Quad} {x : Dec} (ha : dec a = some x) (b : Quad) : Completes .dnorm a b (enc (decNormalize x)) :=
  completes_iff.2 (withDec_of_dec ha _)

section
variable {a b : Quad} {x y : Dec} (ha : dec a = some x) (hb : dec b = some y)
include ha hb

theorem completes_dadd : Completes .dadd a b (enc (decAdd x y)) := completes_iff.2 (withDecs_of_dec ha hb _)

theorem completes_dsub : Completes .dsub a b (enc (decSub x y)) := completes_iff.2 (withDecs_of_dec ha hb _)

theorem completes_dmul : Completes .dmul a b (enc (decMul x y)) := completes_iff.2 (withDecs_of_dec ha hb _)

theorem completes_ddiv (hy : y.mant ≠ 0) : Completes .ddiv a b (enc (decQuotient Config.divExtraPrecision x y)) :=
  completes_iff.2 ((withDecs_of_dec ha hb _).trans (decDiv_of_ne_zero hy))

theorem raises_ddiv_overflow (hy : y.mant = 0) : Raises .ddiv a b .overflow :=
  (raises_iff (by decide)).2 ((withDecs_of_dec ha hb _).trans (decDiv_of_zero hy))

end

/-- The two-operand decimal commands raise BADOPND for a malformed operand (R85). -/
theorem raises_badOpnd_of_none {i : Instr} {a b : Quad} (h : dec a = none ∨ dec b = none) (hi : isDecimal i = true)
    (hB : readsB i = true) : Raises i a b .badOpnd := by
  rw [raises_iff (by decide)]
  cases i <;> cases hi <;> cases hB <;> exact withDecs_of_none h _

/-! ## Every completed decimal command writes a canonical image (R87) -/

theorem canonicalImage_enc {d : Dec} (hm : d.mant < 2 ^ 96) (hs : d.scale ≤ 28) (hc : d.Canonical) : CanonicalImage (enc d) :=
  ⟨d, dec_enc hm hs, hc⟩

theorem dec_enc_narrow (g : Bool) (m : Nat) {s : Nat} (hs : s ≤ 28) : dec (enc (narrow g m s)) = some (narrow g m s) :=
  dec_enc (narrow_mant_lt g m s) ((narrow_scale_le g m s).trans hs)

theorem canonicalImage_narrow (g : Bool) (m : Nat) {s : Nat} (hs : s ≤ 28) : CanonicalImage (enc (narrow g m s)) :=
  ⟨_, dec_enc_narrow g m hs, narrow_canonical g m s⟩

theorem canonicalImage_decNormalize {a : Quad} {x : Dec} (h : dec a = some x) : CanonicalImage (enc (decNormalize x)) :=
  canonicalImage_enc ((decNormalize_mant_le x).trans_lt (dec_mant_lt h)) ((decNormalize_scale_le x).trans (dec_scale_le h))
    (decNormalize_canonical x)

theorem canonicalImage_decRound {a : Quad} {x : Dec} (h : dec a = some x) (places : Int) (mode : RoundingMode) :
    CanonicalImage (enc (decRound places mode x)) := by
  obtain ⟨hm, hs⟩ := decRound_bounds (places := places) (mode := mode) (dec_mant_lt h) (dec_scale_le h)
  exact canonicalImage_enc hm hs (decRound_canonical places mode x)

theorem canonicalImage_decAdd {x y : Dec} (hx : x.scale ≤ 28) (hy : y.scale ≤ 28) : CanonicalImage (enc (decAdd x y)) :=
  canonicalImage_narrow _ _ (max_le hx hy)

theorem canonicalImage_decSub {x y : Dec} (hx : x.scale ≤ 28) (hy : y.scale ≤ 28) : CanonicalImage (enc (decSub x y)) :=
  canonicalImage_decAdd hx hy

theorem canonicalImage_decMul {x y : Dec} (hx : x.scale ≤ 28) (hy : y.scale ≤ 28) : CanonicalImage (enc (decMul x y)) :=
  canonicalImage_narrow _ _ (preReduce_scale_le hx hy)

theorem decQuotient_canonical (extra : Nat) (x y : Dec) : (decQuotient extra x y).Canonical := decNormalize_canonical _

theorem decQuotient_mant_lt (extra : Nat) (x y : Dec) : (decQuotient extra x y).mant < 2 ^ 96 :=
  (decNormalize_mant_le _).trans_lt (settleQuotient_mant_lt _ _)

theorem decQuotient_scale_le (extra : Nat) {x : Dec} (y : Dec) (hx : x.scale ≤ 28) : (decQuotient extra x y).scale ≤ 28 :=
  calc (decQuotient extra x y).scale ≤ (scaleUp extra x y).2.toNat := (decNormalize_scale_le _).trans (settleQuotient_scale_le _ _)
    _ ≤ 28 := Int.toNat_le.2 (scaleUp_precision_le hx)

theorem dec_enc_decQuotient (extra : Nat) {x : Dec} (y : Dec) (hx : x.scale ≤ 28) :
    dec (enc (decQuotient extra x y)) = some (decQuotient extra x y) :=
  dec_enc (decQuotient_mant_lt extra x y) (decQuotient_scale_le extra y hx)

theorem canonicalImage_of_decDiv {extra : Nat} {x y : Dec} {v : Quad} (hx : x.scale ≤ 28) (h : decDiv extra x y = .complete v) :
    CanonicalImage v := by
  by_cases hy : y.mant = 0
  · rw [decDiv_of_zero hy] at h; cases h
  · rw [decDiv_of_ne_zero hy] at h
    cases h
    exact ⟨_, dec_enc_decQuotient extra y hx, decQuotient_canonical extra x y⟩

/-- What a decimal command writes, one argument per shape of command: rounding and normalization of A, the narrowed sum and product, the
quotient. -/
theorem canonicalImage_of_result {i : Instr} {a b v : Quad} (hi : isDecimal i = true) (h : Instr.result i a b = .complete v) :
    CanonicalImage v := by
  cases i <;> cases hi
  case drnd | dceil | dfloor | dtrunc =>
    obtain ⟨x, ha, h⟩ := withDec_eq_complete h
    cases h
    exact canonicalImage_decRound ha _ _
  case dnorm =>
    obtain ⟨x, ha, h⟩ := withDec_eq_complete h
    cases h
    exact canonicalImage_decNormalize ha
  case dadd =>
    obtain ⟨x, y, ha, hb, h⟩ := withDecs_eq_complete h
    cases h
    exact canonicalImage_decAdd (dec_scale_le ha) (dec_scale_le hb)
  case dsub =>
    obtain ⟨x, y, ha, hb, h⟩ := withDecs_eq_complete h
    cases h
    exact canonicalImage_decSub (dec_scale_le ha) (dec_scale_le hb)
  case dmul =>
    obtain ⟨x, y, ha, hb, h⟩ := withDecs_eq_complete h
    cases h
    exact canonicalImage_decMul (dec_scale_le ha) (dec_scale_le hb)
  case ddiv =>
    obtain ⟨x, y, ha, -, h⟩ := withDecs_eq_complete h
    exact canonicalImage_of_decDiv (dec_scale_le ha) h

theorem canonicalImage_of_exec {i : Instr} {s t : State} (hi : isDecimal i = true) (h : exec i s = .next t) (ht : t.err = .none) :
    CanonicalImage t.r := by
  rw [exec_eq] at h
  cases h
  cases hres : Instr.result i s.la s.lb with
  | complete v => exact canonicalImage_of_result hi hres
  | raise e =>
    rw [hres] at ht
    exact absurd ht (result_raise_ne_none hres)

theorem decNormalize_of_mant_zero {d : Dec} (h : d.mant = 0) : decNormalize d = ⟨false, 0, 0⟩ := if_pos h

theorem decNormalize_of_mant_ne_zero {d : Dec} (h : d.mant ≠ 0) :
    decNormalize d = ⟨d.neg, (stripZeros d.scale d.mant).1, (stripZeros d.scale d.mant).2⟩ := if_neg h

/-- Settles O18: the loop's three facts, and the image that each shape of command writes. -/
theorem normalizeIsCanonicalAndKeepsTheValue : Obligations.NormalizeIsCanonicalAndKeepsTheValue := by
  refine ⟨decNormalize_value, fun d => decNormalize_of_mant_zero, fun d hm => ?_, fun i s t => canonicalImage_of_exec⟩
  rw [decNormalize_of_mant_ne_zero hm]
  have hle := stripZeros_scale_le d.scale d.mant
  exact ⟨rfl, stripZeros_stop _ _, d.scale - (stripZeros d.scale d.mant).2, Nat.sub_le _ _, by simp only; omega,
    (stripZeros_mul _ _).symm⟩

/-! ## DNORM (R94) -/

theorem enc_zero : enc ⟨false, 0, 0⟩ = 0 := by decide

theorem dec_one : dec 1 = some ⟨false, 1, 0⟩ := by decide

/-- At scale 0 there is no digit to take off. -/
theorem decNormalize_of_scale_zero {d : Dec} (hs : d.scale = 0) (hm : d.mant ≠ 0) : decNormalize d = d :=
  decNormalize_of_canonical ⟨fun h => absurd h hm, fun h => absurd hs h⟩

/-- Settles O25. -/
theorem dnormNormalizes : Obligations.DnormNormalizes := by
  refine ⟨rfl, fun a b x ha => completes_dnorm ha b, fun a b ha => ?_, fun a b x ha hm => ?_, ?_, fun a b x ha hs hm => ?_,
    fun b => completes_dnorm (x := ⟨false, 420000, 4⟩) (by decide) b⟩
  · exact (raises_iff (by decide)).2 (withDec_of_none ha _)
  · simpa only [decNormalize_of_mant_zero hm, enc_zero] using completes_dnorm ha b
  · rintro a b ⟨x, ha, hc⟩
    simpa only [decNormalize_of_canonical hc, enc_dec ha] using completes_dnorm ha b
  · simpa only [decNormalize_of_scale_zero hs hm, enc_dec ha] using completes_dnorm ha b

/-! ## DADD and DSUB on signed integers (R92, R95, R96) -/

/-- R95's three cases give the magnitude of the signed sum. -/
theorem addMagnitudes_magnitude (ga gb : Bool) (xa xb : Nat) :
    (addMagnitudes ga gb xa xb).2 = ((if ga then -1 else 1) * (xa : Int) + (if gb then -1 else 1) * (xb : Int)).natAbs := by
  cases ga <;> cases gb <;> simp only [addMagnitudes, reduceIte, reduceCtorEq, apply_ite Prod.snd]
  case false.false | true.true => omega
  case false.true | true.false => split <;> omega

/-- They give its sign too, except that a zero sum may carry either. -/
theorem addMagnitudes_sign {ga gb : Bool} {xa xb : Nat} (h : (addMagnitudes ga gb xa xb).2 ≠ 0) :
    (addMagnitudes ga gb xa xb).1 = decide ((if ga then -1 else 1) * (xa : Int) + (if gb then -1 else 1) * (xb : Int) < 0) := by
  rw [Bool.eq_iff_iff, decide_eq_true_iff]
  cases ga <;> cases gb <;>
    simp only [addMagnitudes, reduceIte, reduceCtorEq, apply_ite Prod.fst, apply_ite Prod.snd, true_iff, false_iff] at h ⊢
  case false.false | true.true => omega
  case false.true | true.false => split_ifs at h ⊢ <;> simp only [true_iff, false_iff] <;> omega

/-- The sum of two decimals' lifted magnitudes, at the larger scale (R92). -/
def liftedSum (x y : Dec) : Int := x.lifted (max x.scale y.scale) + y.lifted (max x.scale y.scale)

/-- DADD narrows the magnitude of the signed sum, with its sign. -/
theorem decAdd_eq {x y : Dec} (hx : x.scale ≤ 28) (hy : y.scale ≤ 28) :
    decAdd x y = narrow (decide (liftedSum x y < 0)) (liftedSum x y).natAbs (max x.scale y.scale) := by
  rw [decAdd, align_eq hx hy]
  have hmag : (addMagnitudes x.neg y.neg _ _).2 = (liftedSum x y).natAbs := addMagnitudes_magnitude ..
  by_cases h0 : (liftedSum x y).natAbs = 0
  · rw [hmag, h0, narrow_zero, narrow_zero]
  · rw [addMagnitudes_sign (hmag ▸ h0), hmag]
    rfl

theorem liftedSum_value (x y : Dec) : (liftedSum x y : ℚ) = (x.value + y.value) * 10 ^ max x.scale y.scale := by
  rw [liftedSum, Int.cast_add, lifted_value x (le_max_left ..), lifted_value y (le_max_right ..), add_mul]

theorem liftedSum_comm (x y : Dec) : liftedSum x y = liftedSum y x := by
  rw [liftedSum, liftedSum, max_comm, add_comm]

theorem Dec.lifted_not_neg (d : Dec) (s : Nat) : Dec.lifted { d with neg := !d.neg } s = -d.lifted s := by
  unfold Dec.lifted
  cases d.neg <;> simp

theorem decAdd_comm {x y : Dec} (hx : x.scale ≤ 28) (hy : y.scale ≤ 28) : decAdd x y = decAdd y x := by
  rw [decAdd_eq hx hy, decAdd_eq hy hx, liftedSum_comm, max_comm]

/-- Narrowing keeps the value of a multiple of a power of ten that FIT can drop. -/
theorem narrow_value_of_mul_pow {m e s M : Nat} (g : Bool) (hm : m < 2 ^ 96) (he : e ≤ s) (hM : M = m * 10 ^ e) :
    (narrow g M s).value = Dec.value ⟨g, M, s⟩ := by
  rw [narrow, decNormalize_value, hM, fit_value hm he]

/-- DADD is exact where the aligned sum is such a multiple. -/
theorem decAdd_value {x y : Dec} {m e : Nat} (hx : x.scale ≤ 28) (hy : y.scale ≤ 28) (hm : m < 2 ^ 96) (he : e ≤ max x.scale y.scale)
    (h : (liftedSum x y).natAbs = m * 10 ^ e) : (decAdd x y).value = x.value + y.value := by
  rw [decAdd_eq hx hy, narrow_value_of_mul_pow _ hm he h, Dec.value_of_int, liftedSum_value, mul_div_assoc,
    div_self (by positivity), mul_one]

theorem decSub_value {x y : Dec} {m e : Nat} (hx : x.scale ≤ 28) (hy : y.scale ≤ 28) (hm : m < 2 ^ 96) (he : e ≤ max x.scale y.scale)
    (h : (x.lifted (max x.scale y.scale) - y.lifted (max x.scale y.scale)).natAbs = m * 10 ^ e) :
    (decSub x y).value = x.value - y.value := by
  have hsum : (liftedSum x { y with neg := !y.neg }).natAbs = m * 10 ^ e := by
    rwa [liftedSum, Dec.lifted_not_neg, ← Int.sub_eq_add_neg]
  rw [sub_eq_add_neg, ← Dec.value_not_neg]
  exact decAdd_value hx hy hm he hsum

theorem decAdd_of_opposite {x y : Dec} (hx : x.scale ≤ 28) (hy : y.scale ≤ 28) (h : x.value = -y.value) :
    decAdd x y = ⟨false, 0, 0⟩ := by
  have hsum : liftedSum x y = 0 := by
    have := liftedSum_value x y
    rw [h, neg_add_cancel, zero_mul] at this
    exact_mod_cast this
  rw [decAdd_eq hx hy, hsum, Int.natAbs_zero, narrow_zero]

/-- A zero addend leaves the normal form of the other: FIT can drop the zero digits that the alignment added. -/
theorem decAdd_of_mant_zero {x y : Dec} (hxm : x.mant < 2 ^ 96) (hx : x.scale ≤ 28) (hy : y.scale ≤ 28) (h : y.mant = 0) :
    decAdd x y = decNormalize x := by
  have hmag : (liftedSum x y).natAbs = x.mant * 10 ^ (max x.scale y.scale - x.scale) := by
    rw [liftedSum, Dec.lifted, Dec.lifted, h]
    cases x.neg <;> simp [Int.natAbs_mul, Int.natAbs_pow]
  refine (narrow_canonical ..).eq_decNormalize ?_
  change (decAdd x y).value = _
  rw [decAdd_value hx hy hxm (Nat.sub_le ..) hmag, Dec.value_eq_zero_iff.2 h, add_zero]

theorem decSub_self {x : Dec} (hx : x.scale ≤ 28) : decSub x x = ⟨false, 0, 0⟩ :=
  decAdd_of_opposite hx hx (by rw [Dec.value_not_neg, neg_neg])

theorem decSub_of_mant_zero {x y : Dec} (hxm : x.mant < 2 ^ 96) (hx : x.scale ≤ 28) (hy : y.scale ≤ 28) (h : y.mant = 0) :
    decSub x y = decNormalize x := decAdd_of_mant_zero hxm hx hy h

/-- Settles O26, from DADD as the narrowed signed sum. -/
theorem daddAlignsAddsAndFits : Obligations.DaddAlignsAddsAndFits := by
  refine ⟨rfl, ?_, fun a b h => raises_badOpnd_of_none h rfl rfl, fun a b x y ha hb h => ?_, completes_iff.2 (by decide +kernel),
    completes_iff.2 (by decide +kernel), completes_iff.2 (by decide +kernel), fun a b x y ha hb h => ?_,
    completes_iff.2 (by decide +kernel)⟩
  · rintro a b x y s v ha hb rfl rfl
    have h := completes_dadd ha hb
    rwa [decAdd_eq (dec_scale_le ha) (dec_scale_le hb)] at h
  · simpa only [decAdd_of_opposite (dec_scale_le ha) (dec_scale_le hb) h, enc_zero] using completes_dadd ha hb
  · simpa only [decAdd_of_mant_zero (dec_mant_lt ha) (dec_scale_le ha) (dec_scale_le hb) h] using completes_dadd ha hb

/-- Inverting bit 127 inverts the sign and touches no other field. -/
theorem dec_xor_min {b : Quad} {y : Dec} (h : dec b = some y) : dec (b ^^^ Quad.min) = some { y with neg := !y.neg } := by
  obtain ⟨hs, hr, rfl⟩ := dec_eq_some.1 h
  have hscale : scaleField (b ^^^ Quad.min) = scaleField b := by
    rw [scaleField, BitVec.extractLsb'_xor]; exact BitVec.xor_zero
  have hmant : mantissaField (b ^^^ Quad.min) = mantissaField b := by
    rw [mantissaField, BitVec.extractLsb'_xor]; exact BitVec.xor_zero
  have hreserved : reservedZero (b ^^^ Quad.min) = reservedZero b := by
    rw [reservedZero, BitVec.extractLsb'_xor, BitVec.extractLsb'_xor, show Quad.min.extractLsb' 96 16 = 0#16 by decide,
      show Quad.min.extractLsb' 120 7 = 0#7 by decide, BitVec.xor_zero, BitVec.xor_zero, reservedZero]
  have hsign : signBit (b ^^^ Quad.min) = !signBit b := by
    rw [signBit, BitVec.getLsbD_xor, show Quad.min.getLsbD 127 = true by decide, Bool.xor_true, signBit]
  rw [dec_eq_some, hscale, hmant, hsign, hreserved]
  exact ⟨hs, hr, rfl⟩

/-- Settles O27: DSUB is DADD on the operand that inverting bit 127 decodes to. -/
theorem dsubIsDaddOfTheNegated : Obligations.DsubIsDaddOfTheNegated := by
  refine ⟨rfl, fun a b x y ha hb => ?_, fun a b h => raises_badOpnd_of_none h rfl rfl, fun a x ha => ?_, fun a b x y ha hb h => ?_,
    completes_iff.2 (by decide +kernel)⟩
  · exact ⟨enc (decSub x y), completes_dsub ha hb, completes_dadd ha (dec_xor_min hb), dec_xor_min hb⟩
  · simpa only [decSub_self (dec_scale_le ha), enc_zero] using completes_dsub ha ha
  · simpa only [decSub_of_mant_zero (dec_mant_lt ha) (dec_scale_le ha) (dec_scale_le hb) h] using completes_dsub ha hb

/-! ## DMUL (R97, R98) -/

theorem rhu_zero_mant (n : Nat) : rhu 0 n = 0 := Nat.le_zero.1 (rhu_le 0 n)

theorem decMul_of_mant_zero {x y : Dec} (h : x.mant = 0 ∨ y.mant = 0) : decMul x y = ⟨false, 0, 0⟩ := by
  have hproduct : (preReduce x y).1.mant * (preReduce x y).2.mant = 0 := by
    rcases h with h | h <;> simp [preReduce, h, rhu_zero_mant]
  rw [decMul, hproduct, narrow_zero]

theorem decMul_of_scale_le {x y : Dec} (h : x.scale + y.scale ≤ 28) :
    decMul x y = narrow (x.neg ^^ y.neg) (x.mant * y.mant) (x.scale + y.scale) := by
  rw [decMul, preReduce_of_le h]

theorem decMul_one {x : Dec} (hm : x.mant < 2 ^ 96) (hs : x.scale ≤ 28) : decMul x ⟨false, 1, 0⟩ = decNormalize x := by
  have hsum : x.scale + (⟨false, 1, 0⟩ : Dec).scale ≤ 28 := hs
  rw [decMul_of_scale_le hsum, Bool.xor_false, mul_one, add_zero, narrow, fit_of_lt hm]

/-- Settles O28. -/
theorem dmulFitsTheExactProduct : Obligations.DmulFitsTheExactProduct := by
  refine ⟨rfl, ?_, fun a b h => raises_badOpnd_of_none h rfl rfl, fun a b x y ha hb h => ?_, fun a x ha => ?_,
    completes_iff.2 (by decide +kernel), completes_iff.2 (by decide +kernel), completes_iff.2 (by decide +kernel)⟩
  · rintro a b x y x' y' p ha hb hred rfl
    simpa only [decMul, narrow, hred] using completes_dmul ha hb
  · simpa only [decMul_of_mant_zero h, enc_zero] using completes_dmul ha hb
  · simpa only [decMul_one (dec_mant_lt ha) (dec_scale_le ha)] using completes_dmul ha dec_one

/-! ## Exactness and commutation (R101, R92, R97) -/

/-- DMUL is exact where the pre-reduction keeps the operands' values and the product is a multiple that FIT can narrow exactly. -/
theorem decMul_value {x y x' y' : Dec} {m e : Nat} (hred : preReduce x y = (x', y')) (hx : x'.value = x.value) (hy : y'.value = y.value)
    (hm : m < 2 ^ 96) (he : e ≤ x'.scale + y'.scale) (h : x'.mant * y'.mant = m * 10 ^ e) :
    (decMul x y).value = x.value * y.value := by
  have hsigns : x.neg = x'.neg ∧ y.neg = y'.neg := by
    obtain ⟨rfl, rfl⟩ := Prod.mk.inj hred
    exact ⟨rfl, rfl⟩
  simp only [decMul, hred]
  rw [narrow_value_of_mul_pow _ hm he h, hsigns.1, hsigns.2, Dec.value_mul, hx, hy]

/-- Settles O29; the operands that need no pre-reduction are a case of those it keeps. -/
theorem decimalResultsAreExactWhenTheyFit : Obligations.DecimalResultsAreExactWhenTheyFit := by
  intro a b x y m e ha hb hm
  have hx := dec_scale_le ha
  have hy := dec_scale_le hb
  have hmul : ∀ x' y' : Dec, preReduce x y = (x', y') → x'.value = x.value → y'.value = y.value → e ≤ x'.scale + y'.scale →
      x'.mant * y'.mant = m * 10 ^ e → ∃ v d, Completes .dmul a b v ∧ dec v = some d ∧ d.value = x.value * y.value :=
    fun x' y' hred hx' hy' he h =>
      ⟨_, _, completes_dmul ha hb, dec_enc_narrow _ _ (preReduce_scale_le hx hy), decMul_value hred hx' hy' hm he h⟩
  have hdec : ∀ g M, dec (enc (narrow g M (max x.scale y.scale))) = some (narrow g M (max x.scale y.scale)) :=
    fun g M => dec_enc_narrow g M (max_le hx hy)
  exact ⟨fun he h => ⟨_, _, completes_dadd ha hb, hdec _ _, decAdd_value hx hy hm he h⟩,
    fun he h => ⟨_, _, completes_dsub ha hb, hdec _ _, decSub_value hx hy hm he h⟩,
    fun hsum he h => hmul x y (preReduce_of_le hsum) rfl rfl he h, hmul⟩

/-- The excess of equal scales is even, so no operand is favoured. -/
theorem reduction_swap (sa sb : Nat) : reduction sb sa = (reduction sa sb).swap := by
  rcases lt_trichotomy sa sb with h | rfl | h
  · simp [reduction, h.le, not_le.2 h, Nat.add_comm]
  · have : (sa + sa - Config.maxScale + 1) / 2 = (sa + sa - Config.maxScale) / 2 := by simp only [Config.maxScale]; omega
    simp [reduction, this]
  · simp [reduction, h.le, not_le.2 h, Nat.add_comm]

theorem preReduce_swap (x y : Dec) : preReduce y x = (preReduce x y).swap := by
  simp only [preReduce, reduction_swap x.scale y.scale, Prod.swap]

theorem decMul_comm (x y : Dec) : decMul x y = decMul y x := by
  simp only [decMul, preReduce_swap x y, Prod.fst_swap, Prod.snd_swap]
  rw [Bool.xor_comm, Nat.mul_comm, Nat.add_comm]

/-- A command raises no NONE: R would have to be the result whatever it held before. -/
theorem raises_ne_none {i : Instr} {a b : Quad} {e : ErrCode} (h : Raises i a b e) : e ≠ .none := by
  rintro rfl
  have hfinish (r : Quad) : State.finish { State.reset with la := a, lb := b, r := r } (Instr.result i a b) =
      { State.reset with la := a, lb := b, r := r, err := .none, busy := false } :=
    Host.Outcome.next.inj ((exec_eq i _).symm.trans (h { State.reset with la := a, lb := b, r := r } rfl rfl))
  cases hres : Instr.result i a b with
  | complete v =>
    have hr : v = ~~~v := congrArg State.r (hres ▸ hfinish (~~~v))
    simp at hr
  | raise e => exact result_raise_ne_none hres (congrArg State.err (hres ▸ hfinish 0))

theorem withDecs_comm {a b : Quad} {f : Dec → Dec → CmdResult} (h : ∀ x y, dec a = some x → dec b = some y → f x y = f y x) :
    withDecs a b f = withDecs b a f := by
  cases ha : dec a with
  | none => rw [withDecs_of_none (.inl ha), withDecs_of_none (.inr ha)]
  | some x =>
    cases hb : dec b with
    | none => rw [withDecs_of_none (.inr hb), withDecs_of_none (.inl hb)]
    | some y => rw [withDecs_of_dec ha hb, withDecs_of_dec hb ha, h x y ha hb]

theorem result_dadd_comm (a b : Quad) : Instr.result .dadd a b = Instr.result .dadd b a :=
  withDecs_comm fun x y ha hb => by rw [decAdd_comm (dec_scale_le ha) (dec_scale_le hb)]

theorem result_dmul_comm (a b : Quad) : Instr.result .dmul a b = Instr.result .dmul b a :=
  withDecs_comm fun x y _ _ => by rw [decMul_comm]

/-- A command whose result does not depend on the order of its operands ends alike for both orders. -/
theorem completes_and_raises_comm {i : Instr} {a b : Quad} (h : Instr.result i a b = Instr.result i b a) :
    (∀ v, Completes i a b v → Completes i b a v) ∧ ∀ e, Raises i a b e → Raises i b a e := by
  refine ⟨fun v hv => ?_, fun e he => ?_⟩
  · rwa [completes_iff, ← h, ← completes_iff]
  · have hne := raises_ne_none he
    rwa [raises_iff hne, ← h, ← raises_iff hne]

/-- Settles O30. -/
theorem daddAndDmulCommute : Obligations.DaddAndDmulCommute := fun a b =>
  have hadd := completes_and_raises_comm (result_dadd_comm a b)
  have hmul := completes_and_raises_comm (result_dmul_comm a b)
  ⟨hadd.1, hadd.2, hmul.1, hmul.2⟩

/-! ## DDIV (R99, R100) -/

theorem shrinkQuotient_of_lt {q : Nat} (t : Nat) (h : q < 2 ^ 96) : shrinkQuotient t q = (q, t) := by
  cases t with
  | zero => rfl
  | succ t => exact if_neg (not_le.2 h)

theorem shrinkQuotient_of_le {q : Nat} (t : Nat) (h : 2 ^ 96 ≤ q) : shrinkQuotient (t + 1) q = shrinkQuotient t (q / 10) := if_pos h

/-- The loop stops at a quotient that fits or at precision 0. -/
theorem shrinkQuotient_stop (t q : Nat) : (shrinkQuotient t q).1 < 2 ^ 96 ∨ (shrinkQuotient t q).2 = 0 := by
  induction t generalizing q with
  | zero => exact .inr rfl
  | succ t ih =>
    by_cases h : q < 2 ^ 96
    · rw [shrinkQuotient_of_lt _ h]; exact .inl h
    · rw [shrinkQuotient_of_le t (not_lt.1 h)]; exact ih _

/-- It takes a digit off only while the quotient does not fit. -/
theorem shrinkQuotient_continue {t q j : Nat} (hj : j < t - (shrinkQuotient t q).2) : 2 ^ 96 ≤ q / 10 ^ j := by
  induction t generalizing q j with
  | zero => omega
  | succ t ih =>
    by_cases h : q < 2 ^ 96
    · rw [shrinkQuotient_of_lt _ h] at hj; simp at hj
    · rw [shrinkQuotient_of_le t (not_lt.1 h)] at hj
      cases j with
      | zero => rw [pow_zero, Nat.div_one]; exact not_lt.1 h
      | succ j =>
        rw [pow_succ' 10 j, ← Nat.div_div_eq_div_mul]
        exact ih (by omega)

theorem settleQuotient_of_neg {q : Nat} {t : Int} (ht : t < 0) : settleQuotient q t = (capTrunc (q * 10 ^ (-t).toNat), 0) := if_pos ht

/-- From a non-negative precision: as few digits as make the quotient fit, and no more than the precision allows (R100). -/
theorem settleQuotient_of_nonneg {q : Nat} {t : Int} (ht : 0 ≤ t) : ∃ i, i ≤ t.toNat ∧ (∀ j, j < i → 2 ^ 96 ≤ q / 10 ^ j) ∧
    (q / 10 ^ i < 2 ^ 96 ∨ i = t.toNat) ∧ settleQuotient q t = (capTrunc (q / 10 ^ i), t.toNat - i) := by
  have hle := shrinkQuotient_scale_le t.toNat q
  refine ⟨t.toNat - (shrinkQuotient t.toNat q).2, Nat.sub_le .., fun _ => shrinkQuotient_continue, ?_, ?_⟩
  · rw [← shrinkQuotient_div]
    exact (shrinkQuotient_stop t.toNat q).imp_right (by omega)
  · rw [settleQuotient, if_neg (not_lt.2 ht), shrinkQuotient_div, Nat.sub_sub_self hle]

theorem settleQuotient_of_lt {q t : Nat} (h : q < 2 ^ 96) : settleQuotient q t = (q, t) := by
  rw [settleQuotient, if_neg (by omega), Int.toNat_natCast, shrinkQuotient_of_lt t h, capTrunc_of_lt h]

/-- Neither cutting digits nor CAPTRUNC makes the settled quotient larger. -/
theorem settleQuotient_value_le (q : Nat) (t : Int) :
    ((settleQuotient q t).1 : ℚ) / 10 ^ (settleQuotient q t).2 ≤ q * 10 ^ (-t) := by
  rcases lt_or_ge t 0 with ht | ht
  · obtain ⟨k, hk⟩ := Int.eq_ofNat_of_zero_le (a := -t) (by omega)
    rw [settleQuotient_of_neg ht, hk, Int.toNat_natCast, pow_zero, div_one, zpow_natCast]
    exact_mod_cast capTrunc_le (q * 10 ^ k)
  · obtain ⟨i, hi, -, -, heq⟩ := settleQuotient_of_nonneg (q := q) ht
    obtain ⟨n, rfl⟩ := Int.eq_ofNat_of_zero_le ht
    rw [heq, Int.toNat_natCast, zpow_neg, zpow_natCast, ← div_eq_mul_inv]
    rw [Int.toNat_natCast] at hi
    calc (capTrunc (q / 10 ^ i) : ℚ) / 10 ^ (n - i) ≤ (q / (10 ^ i : Nat)) / 10 ^ (n - i) := by
          gcongr
          exact (Nat.cast_le.2 (capTrunc_le _)).trans Nat.cast_div_le
      _ = q / 10 ^ n := by
          rw [Nat.cast_pow, div_div, Nat.cast_ofNat, ← pow_add, Nat.add_sub_cancel' hi]

theorem Dec.abs_value_div (x y : Dec) : |x.value / y.value| = x.mant / 10 ^ x.scale / (y.mant / 10 ^ y.scale) := by
  rw [abs_div, Dec.abs_value, Dec.abs_value]

/-- The integer quotient at the tracked precision is at most the exact one (R99). -/
theorem scaleUp_quotient_le (extra : Nat) (x y : Dec) :
    (((scaleUp extra x y).1 / y.mant : Nat) : ℚ) * 10 ^ (-(scaleUp extra x y).2) ≤ |x.value / y.value| := by
  have hpow : (10 : ℚ) ^ (-(scaleUp extra x y).2) = 10 ^ y.scale / (10 ^ x.scale * 10 ^ scaleUpExponent extra x y) := by
    simp only [scaleUp]
    rw [neg_sub, zpow_sub₀ (by norm_num), zpow_add₀ (by norm_num), zpow_natCast, zpow_natCast, zpow_natCast]
  calc _ ≤ ((scaleUp extra x y).1 / y.mant : ℚ) * 10 ^ (-(scaleUp extra x y).2) := by gcongr; exact Nat.cast_div_le
    _ = |x.value / y.value| := by
      rw [hpow, Dec.abs_value_div]
      simp only [scaleUp]
      push_cast
      field_simp

theorem abs_decQuotient_le (extra : Nat) (x y : Dec) : |(decQuotient extra x y).value| ≤ |x.value / y.value| := by
  rw [decQuotient, decNormalize_value, Dec.abs_value]
  exact (settleQuotient_value_le ..).trans (scaleUp_quotient_le extra x y)

/-- The XOR of the signs is the sign of the exact quotient. -/
theorem Dec.value_mul_quotient_nonneg (x y : Dec) (m s : Nat) : 0 ≤ Dec.value ⟨x.neg ^^ y.neg, m, s⟩ * (x.value / y.value) := by
  have hm : (0 : ℚ) ≤ m / 10 ^ s := by positivity
  have hx : (0 : ℚ) ≤ x.mant / 10 ^ x.scale / (y.mant / 10 ^ y.scale) := by positivity
  have h := mul_nonneg hm hx
  unfold Dec.value
  cases x.neg <;> cases y.neg <;> simpa [neg_div, div_neg] using h

/-- Where the scale-up reaches the wanted precision and the quotient there fits, it is what DDIV normalizes. -/
theorem decQuotient_of_reached {extra p : Nat} {x y : Dec} (hx : x.scale ≤ 28) (hp : p = targetPrecision extra x.scale y.scale)
    (hreach : x.mant * 10 ^ (p + y.scale - x.scale) ≤ 2 ^ 127 - 1) (hfit : x.mant * 10 ^ (p + y.scale - x.scale) / y.mant < 2 ^ 96) :
    decQuotient extra x y = decNormalize ⟨x.neg ^^ y.neg, x.mant * 10 ^ (p + y.scale - x.scale) / y.mant, p⟩ := by
  subst hp
  have hle := scale_le_targetPrecision extra y.scale hx
  have hscale : scaleUp extra x y = (x.mant * 10 ^ (targetPrecision extra x.scale y.scale + y.scale - x.scale),
      (targetPrecision extra x.scale y.scale : Int)) := by
    rw [scaleUp, scaleUpExponent_eq hreach]
    exact congrArg _ (by omega)
  rw [decQuotient, hscale, settleQuotient_of_lt hfit]

/-- The exact quotient cut after p digits is an integer division of the mantissas. -/
theorem floor_quotient {x : Dec} (y : Dec) {p : Nat} (hp : x.scale ≤ p) :
    ⌊|x.value / y.value| * 10 ^ p⌋ = (x.mant * 10 ^ (p + y.scale - x.scale) / y.mant : Nat) := by
  have h : |x.value / y.value| * 10 ^ p = ((x.mant * 10 ^ (p + y.scale - x.scale) : Nat) : ℚ) / y.mant := by
    obtain ⟨k, rfl⟩ := Nat.exists_eq_add_of_le hp
    rw [Dec.abs_value_div, show x.scale + k + y.scale - x.scale = k + y.scale by omega]
    push_cast
    rw [pow_add, pow_add]
    field_simp
  rw [h, Rat.floor_natCast_div_natCast, Int.natCast_div]

/-- Settles O32: cutting only makes the quotient smaller, and where nothing is lost early it is one integer division. -/
theorem ddivIsTheTruncatedQuotient : Obligations.DdivIsTheTruncatedQuotient := by
  intro a b x y p ha hb hy hp
  have hx := dec_scale_le ha
  refine ⟨_, _, completes_ddiv ha hb hy, dec_enc_decQuotient _ y hx, abs_decQuotient_le _ x y, ?_, fun hreach hfit => ?_⟩
  · rw [decQuotient, decNormalize_value]
    exact Dec.value_mul_quotient_nonneg x y _ _
  · have hle : x.scale ≤ p := hp ▸ scale_le_targetPrecision Config.divExtraPrecision y.scale hx
    rw [floor_quotient y hle] at hfit ⊢
    rw [decQuotient_of_reached hx hp hreach (by exact_mod_cast hfit), decNormalize_value, Dec.abs_value]
    rw [div_mul_cancel₀ _ (by positivity)]
    rfl

/-- A / A: the quotient is 10^j at precision j, and shrinking leaves that form (R100). -/
theorem decQuotient_self (extra : Nat) {x : Dec} (hm : x.mant ≠ 0) : decQuotient extra x x = ⟨false, 1, 0⟩ := by
  have hq : (scaleUp extra x x).1 / x.mant = 10 ^ scaleUpExponent extra x x :=
    Nat.mul_div_cancel_left _ (Nat.pos_of_ne_zero hm)
  have ht : (scaleUp extra x x).2 = scaleUpExponent extra x x := add_sub_cancel_left ..
  rw [decQuotient, hq, ht]
  generalize scaleUpExponent extra x x = j
  obtain ⟨i, hi, -, hfit, heq⟩ := settleQuotient_of_nonneg (q := 10 ^ j) (Int.natCast_nonneg j)
  rw [Int.toNat_natCast] at hi hfit heq
  have hfit' : 10 ^ (j - i) < 2 ^ 96 := by
    rcases hfit with hfit | rfl
    · rwa [Nat.pow_div hi (by norm_num)] at hfit
    · norm_num
  rw [heq, Nat.pow_div hi (by norm_num), capTrunc_of_lt hfit']
  exact (Dec.Canonical.eq_decNormalize ⟨by simp, by simp⟩ (by simp [Dec.value])).symm

theorem settleQuotient_zero (t : Int) : (settleQuotient 0 t).1 = 0 := by
  rcases lt_or_ge t 0 with ht | ht
  · rw [settleQuotient_of_neg ht, zero_mul]; rfl
  · obtain ⟨i, -, -, -, heq⟩ := settleQuotient_of_nonneg (q := 0) ht
    rw [heq, Nat.zero_div]; rfl

theorem decQuotient_of_mant_zero (extra : Nat) {x : Dec} (y : Dec) (h : x.mant = 0) : decQuotient extra x y = ⟨false, 0, 0⟩ := by
  have hq : (scaleUp extra x y).1 / y.mant = 0 := by simp [scaleUp, h]
  rw [decQuotient, hq]
  exact decNormalize_of_mant_zero (settleQuotient_zero _)

/-- −7.5 / 2.5 is −3 whatever DIV_EXTRA_PRECISION is: the quotient is 3 × 10^p at every precision p up to 28. -/
theorem decQuotient_example (extra : Nat) : decQuotient extra ⟨true, 75, 1⟩ ⟨false, 25, 1⟩ = ⟨true, 3, 0⟩ := by
  generalize hp : targetPrecision extra 1 1 = p
  have hpow : 10 ^ p ≤ 10 ^ 28 := Nat.pow_le_pow_right (by norm_num) (hp ▸ targetPrecision_le extra 1 1)
  have hq : 75 * 10 ^ (p + 1 - 1) / 25 = 3 * 10 ^ p := by rw [Nat.add_sub_cancel]; omega
  rw [decQuotient_of_reached (by norm_num) hp.symm (by simp only [Nat.add_sub_cancel]; omega) (by rw [hq]; omega), hq]
  exact (Dec.Canonical.eq_decNormalize ⟨by simp, by simp⟩ (by simp [Dec.value, neg_div])).symm

/-- Settles O31. -/
theorem ddivScalesDividesAndShrinks : Obligations.DdivScalesDividesAndShrinks := by
  refine ⟨rfl, fun a b h => raises_badOpnd_of_none h rfl rfl, fun a b x y ha hb hy => raises_ddiv_overflow ha hb hy,
    fun a b x y n t ha hb hy hn => ?_, fun a x ha hm => ?_, fun a b x y ha hb hx hy => ?_, ?_⟩
  · have h := completes_ddiv ha hb hy
    rw [decQuotient, hn] at h
    refine ⟨fun ht => by rwa [settleQuotient_of_neg ht] at h, fun ht => ?_⟩
    obtain ⟨i, hi, hmore, hfit, heq⟩ := settleQuotient_of_nonneg (q := n / y.mant) ht
    exact ⟨i, hi, hmore, hfit, by rwa [heq] at h⟩
  · have hone : enc ⟨false, 1, 0⟩ = 1 := enc_dec dec_one
    simpa only [decQuotient_self _ hm, hone] using completes_ddiv ha ha hm
  · simpa only [decQuotient_of_mant_zero _ y hx, enc_zero] using completes_ddiv ha hb hy
  · have ha : dec 0x8001000000000000000000000000004B#128 = some ⟨true, 75, 1⟩ := by decide
    have hb : dec 0x00010000000000000000000000000019#128 = some ⟨false, 25, 1⟩ := by decide
    have hv : enc ⟨true, 3, 0⟩ = 0x80000000000000000000000000000003#128 := by decide
    simpa only [decQuotient_example, hv] using completes_ddiv ha hb (by decide)

end Sys2Proof.Machine

/-! SUPPORT. The family 42_rounding.md: the removed digits as a remainder (R110), the increment decision on that remainder (R112), DRND as
the mathematical rounding of the exact value (R111), and the rounding state machine (R113). -/

namespace Sys2Proof.Machine

/-! ## The removed digits (R110) -/

/-- T is one digit shorter than the mantissa without its rest, and that digit is the rounding digit. -/
theorem truncatedMantissa_mul_add_roundingDigit (m : Nat) {n : Nat} (hn : 1 ≤ n) :
    truncatedMantissa m n * 10 + roundingDigit m n = m / 10 ^ (n - 1) := by
  have hT : truncatedMantissa m n = m / 10 ^ (n - 1) / 10 := by
    rw [truncatedMantissa, Nat.div_div_eq_div_mul, ← pow_succ, Nat.sub_add_cancel hn]
  rw [hT, roundingDigit, Nat.div_add_mod']

/-- The removed digits are the rounding digit followed by the rest. -/
theorem mod_pow_eq_roundingDigit_add_removedRest (m : Nat) {n : Nat} (hn : 1 ≤ n) :
    m % 10 ^ n = roundingDigit m n * 10 ^ (n - 1) + removedRest m n := by
  obtain ⟨k, rfl⟩ := Nat.exists_eq_add_of_le' hn
  rw [pow_succ, Nat.mod_mul, roundingDigit, removedRest, Nat.add_sub_cancel]
  ring

theorem roundingDigit_lt (m n : Nat) : roundingDigit m n < 10 := Nat.mod_lt _ (by norm_num)

theorem removedRest_lt (m n : Nat) : removedRest m n < 10 ^ (n - 1) := Nat.mod_lt _ (by positivity)

theorem truncatedMantissa_eq_iterate (m n : Nat) : truncatedMantissa m n = (fun v => v / 10)^[n] m := by
  induction n with
  | zero => exact Nat.div_one m
  | succ n ih => rw [Function.iterate_succ_apply', ← ih, truncatedMantissa, truncatedMantissa, Nat.div_div_eq_div_mul, pow_succ]

theorem anyRemoved_iff {m n : Nat} : anyRemoved m n = true ↔ m % 10 ^ n ≠ 0 := bne_iff_ne

/-! ## The increment decision (R112) -/

theorem increments_toNearest_iff {g : Bool} {d rest t : Nat} {any : Bool} : increments .toNearest g d rest t any = true ↔
    5 < d ∨ (d = 5 ∧ rest ≠ 0) ∨ (d = 5 ∧ rest = 0 ∧ t % 2 = 1) := by
  simp [increments, or_assoc, and_assoc]

theorem increments_toNearestTiesAway_iff {g : Bool} {d rest t : Nat} {any : Bool} :
    increments .toNearestTiesAway g d rest t any = true ↔ 5 ≤ d := decide_eq_true_iff

theorem increments_toPositiveInfinity (g : Bool) (d rest t : Nat) (any : Bool) :
    increments .toPositiveInfinity g d rest t any = (!g && any) := rfl

theorem increments_toNegativeInfinity (g : Bool) (d rest t : Nat) (any : Bool) :
    increments .toNegativeInfinity g d rest t any = (g && any) := rfl

/-- Settles O24. -/
theorem extractAndIncrementDecision : Obligations.ExtractAndIncrementDecision := by
  refine ⟨fun m n hn => ⟨?_, roundingDigit_lt m n, removedRest_lt m n, ?_, truncatedMantissa_eq_iterate m n, ?_⟩,
    fun g d rest t any => ⟨increments_toNearest_iff, increments_toNearestTiesAway_iff, rfl, ?_, ?_⟩⟩
  · rw [truncatedMantissa_mul_add_roundingDigit m hn, removedRest, Nat.div_add_mod']
  · rintro rfl
    exact Nat.mod_one m
  · rw [anyRemoved_iff, mod_pow_eq_roundingDigit_add_removedRest m hn, ne_eq, Nat.add_eq_zero_iff, Nat.mul_eq_zero,
      or_iff_left (by positivity), not_and_or]
  · simp [increments_toPositiveInfinity]
  · simp [increments_toNegativeInfinity]

/-! ## The increment decision on the removed part (R110, R112) -/

/-- The rounding digit is at least 5 where the removed part is at least half of `10^n`. -/
theorem five_le_roundingDigit_iff (m : Nat) {n : Nat} (hn : 1 ≤ n) : 5 ≤ roundingDigit m n ↔ 10 ^ n ≤ 2 * (m % 10 ^ n) := by
  obtain ⟨k, rfl⟩ := Nat.exists_eq_add_of_le' hn
  have hd : roundingDigit m (k + 1) = m % 10 ^ (k + 1) / 10 ^ k := by
    rw [pow_succ, Nat.mod_mul_right_div_self, roundingDigit, Nat.add_sub_cancel]
  rw [hd, Nat.le_div_iff_mul_le (by positivity), pow_succ]
  omega

/-- A tie: the removed part is half of `10^n` where it is a 5 and no further non-zero digit. -/
theorem roundingDigit_tie_iff (m : Nat) {n : Nat} (hn : 1 ≤ n) :
    roundingDigit m n = 5 ∧ removedRest m n = 0 ↔ 2 * (m % 10 ^ n) = 10 ^ n := by
  have hsplit := mod_pow_eq_roundingDigit_add_removedRest m hn
  have hhalf : 2 * (5 * 10 ^ (n - 1)) = 10 ^ n := by
    rw [← pow_sub_one_mul (Nat.one_le_iff_ne_zero.1 hn)]; ring
  constructor
  · rintro ⟨hd, hrest⟩
    rw [hsplit, hd, hrest, add_zero, hhalf]
  · intro htie
    have hle := (five_le_roundingDigit_iff m hn).2 htie.ge
    have hmul : 5 * 10 ^ (n - 1) ≤ roundingDigit m n * 10 ^ (n - 1) := Nat.mul_le_mul_right _ hle
    have hrest : removedRest m n = 0 := by omega
    exact ⟨Nat.eq_of_mul_eq_mul_right (show 0 < 10 ^ (n - 1) by positivity) (by omega), hrest⟩

/-- Below half of `10^n` T stays, above it T is incremented, and at a tie T becomes even. -/
theorem roundedMantissa_toNearest (g : Bool) (m : Nat) {n : Nat} (hn : 1 ≤ n) : roundedMantissa .toNearest g m n =
    if 2 * (m % 10 ^ n) < 10 ^ n then m / 10 ^ n else if 10 ^ n < 2 * (m % 10 ^ n) then m / 10 ^ n + 1
    else if m / 10 ^ n % 2 = 0 then m / 10 ^ n else m / 10 ^ n + 1 := by
  have hge := five_le_roundingDigit_iff m hn
  have htie := roundingDigit_tie_iff m hn
  simp only [roundedMantissa, increments_toNearest_iff, truncatedMantissa]
  split_ifs <;> omega

/-- Ties away from zero are round-half-up of the magnitude (R89). -/
theorem roundedMantissa_toNearestTiesAway (g : Bool) (m : Nat) {n : Nat} (hn : 1 ≤ n) :
    roundedMantissa .toNearestTiesAway g m n = rhu m n := by
  simp only [roundedMantissa, increments_toNearestTiesAway_iff, five_le_roundingDigit_iff m hn, truncatedMantissa, rhu,
    if_neg (Nat.one_le_iff_ne_zero.1 hn), ge_iff_le]

/-- The mode that rounds `−v` as `mode` rounds `v`. -/
def mirrorMode : RoundingMode → RoundingMode
  | .toPositiveInfinity => .toNegativeInfinity
  | .toNegativeInfinity => .toPositiveInfinity
  | mode => mode

/-- The decision on a negative operand is that of the mirrored mode on a positive one. -/
theorem roundedMantissa_mirror (mode : RoundingMode) (m n : Nat) :
    roundedMantissa mode true m n = roundedMantissa (mirrorMode mode) false m n := by
  cases mode <;> rfl

/-! ## Rounding a rational (R59, R112) -/

theorem roundValue_intCast (mode : RoundingMode) (z : Int) : roundValue mode z = z := by
  have hhalf (w : Int) : ⌊(w : ℚ) + 1 / 2⌋ = w := by rw [Int.floor_intCast_add]; norm_num
  cases mode with
  | toNearest => simp [roundValue]
  | toNearestTiesAway =>
    have hneg := hhalf (-z)
    rw [Int.cast_neg] at hneg
    simp only [roundValue, hhalf, hneg, neg_neg, ite_self]
  | toZero | toPositiveInfinity | toNegativeInfinity => simp [roundValue]

/-- The definition of ToNearest, with the fractional part by its name. -/
theorem roundValue_toNearest (v : ℚ) : roundValue .toNearest v =
    if Int.fract v < 1 / 2 then ⌊v⌋ else if 1 / 2 < Int.fract v then ⌊v⌋ + 1 else if ⌊v⌋ % 2 = 0 then ⌊v⌋ else ⌊v⌋ + 1 := rfl

theorem ceil_eq_floor_add (v : ℚ) : ⌈v⌉ = ⌊v⌋ + if Int.fract v = 0 then 0 else 1 := by
  split
  · next h =>
    obtain ⟨z, rfl⟩ := Int.fract_eq_zero_iff.1 h
    simp
  · next h => exact (Int.ceil_eq_floor_add_one_iff_notMem v).2 (mt Int.fract_eq_zero_iff.2 h)

theorem roundValue_toNearest_neg (v : ℚ) : roundValue .toNearest (-v) = -roundValue .toNearest v := by
  by_cases h : Int.fract v = 0
  · obtain ⟨z, rfl⟩ := Int.fract_eq_zero_iff.1 h
    rw [← Int.cast_neg, roundValue_intCast, roundValue_intCast]
  · have hfloor : ⌊-v⌋ = -⌊v⌋ - 1 := by rw [Int.floor_neg, ceil_eq_floor_add, if_neg h]; ring
    rw [roundValue_toNearest, roundValue_toNearest, Int.fract_neg h, hfloor]
    rcases lt_trichotomy (Int.fract v) (1 / 2) with hlt | htie | hgt
    · rw [if_neg (by linarith), if_pos (by linarith), if_pos hlt]; ring
    · rw [htie]
      norm_num
      split_ifs <;> omega
    · rw [if_pos (by linarith), if_neg hgt.not_gt, if_pos hgt]; ring

/-- Rounding is symmetric about zero, up to the direction of the directed modes. -/
theorem roundValue_neg (mode : RoundingMode) (v : ℚ) : roundValue mode (-v) = -roundValue (mirrorMode mode) v := by
  cases mode with
  | toNearest => exact roundValue_toNearest_neg v
  | toNearestTiesAway | toZero =>
    simp only [roundValue, mirrorMode, neg_lt_zero, neg_neg, Int.ceil_neg, Int.floor_neg]
    rcases lt_trichotomy v 0 with h | rfl | h
    · simp only [if_neg h.not_gt, if_pos h, neg_neg]
    · norm_num
    · rw [if_pos h, if_neg h.not_gt]
  | toPositiveInfinity => exact Int.ceil_neg
  | toNegativeInfinity => exact Int.floor_neg

section
variable (m : Nat) {n : Nat}

theorem floor_div_pow (n : Nat) : ⌊(m / 10 ^ n : ℚ)⌋ = (m / 10 ^ n : Nat) := by
  exact_mod_cast Rat.floor_natCast_div_natCast m (10 ^ n)

theorem fract_div_pow (n : Nat) : Int.fract (m / 10 ^ n : ℚ) = (m % 10 ^ n : Nat) / 10 ^ n := by
  exact_mod_cast Int.fract_div_natCast_eq_div_natCast_mod (k := ℚ) (m := m) (n := 10 ^ n)

theorem roundValue_toNearest_div (hn : 1 ≤ n) : roundValue .toNearest (m / 10 ^ n) = roundedMantissa .toNearest false m n := by
  have hlt : Int.fract (m / 10 ^ n : ℚ) < 1 / 2 ↔ 2 * (m % 10 ^ n) < 10 ^ n := by
    rw [fract_div_pow, div_lt_div_iff₀ (by positivity) (by norm_num), mul_comm, one_mul]
    exact_mod_cast Iff.rfl
  have hgt : 1 / 2 < Int.fract (m / 10 ^ n : ℚ) ↔ 10 ^ n < 2 * (m % 10 ^ n) := by
    rw [fract_div_pow, div_lt_div_iff₀ (by norm_num) (by positivity), mul_comm _ 2, one_mul]
    exact_mod_cast Iff.rfl
  simp only [roundValue_toNearest, hlt, hgt, floor_div_pow, roundedMantissa_toNearest false m hn]
  norm_cast

theorem roundValue_toNearestTiesAway_div (hn : 1 ≤ n) :
    roundValue .toNearestTiesAway (m / 10 ^ n) = roundedMantissa .toNearestTiesAway false m n := by
  have hhalf : (m / 10 ^ n + 1 / 2 : ℚ) = (2 * m + 10 ^ n : Nat) / (2 * 10 ^ n : Nat) := by
    push_cast; field_simp
  rw [roundValue, if_neg (not_lt.2 (by positivity)), hhalf, Rat.floor_natCast_div_natCast, roundedMantissa_toNearestTiesAway false m hn,
    rhu_eq_div]
  norm_cast

theorem roundValue_toPositiveInfinity_div (n : Nat) :
    roundValue .toPositiveInfinity (m / 10 ^ n) = roundedMantissa .toPositiveInfinity false m n := by
  have hfract : Int.fract (m / 10 ^ n : ℚ) = 0 ↔ m % 10 ^ n = 0 := by
    rw [fract_div_pow, div_eq_zero_iff, Nat.cast_eq_zero, or_iff_left (by positivity)]
  rw [roundValue, ceil_eq_floor_add, floor_div_pow]
  simp only [hfract, roundedMantissa, increments_toPositiveInfinity, Bool.not_false, Bool.true_and, anyRemoved_iff, truncatedMantissa,
    ne_eq, ite_not]
  split <;> rfl

/-- EXTRACT and the increment decision round the exact quotient of a non-negative mantissa. -/
theorem roundValue_div (mode : RoundingMode) (hn : 1 ≤ n) : roundValue mode (m / 10 ^ n) = roundedMantissa mode false m n := by
  cases mode with
  | toNearest => exact roundValue_toNearest_div m hn
  | toNearestTiesAway => exact roundValue_toNearestTiesAway_div m hn
  | toPositiveInfinity => exact roundValue_toPositiveInfinity_div m n
  | toZero => rw [roundValue, if_neg (not_lt.2 (by positivity)), floor_div_pow]; rfl
  | toNegativeInfinity => exact floor_div_pow m n

end

/-! ## DRND (R111) -/

theorem decRound_of_le {places : Int} {x : Dec} (h : x.scale ≤ effectivePlaces places) (mode : RoundingMode) :
    decRound places mode x = decNormalize x := if_pos h

theorem decRound_of_lt {places : Int} {x : Dec} (h : effectivePlaces places < x.scale) (mode : RoundingMode) :
    decRound places mode x =
      decNormalize ⟨x.neg, roundedMantissa mode x.neg x.mant (x.scale - effectivePlaces places), effectivePlaces places⟩ :=
  if_neg (not_le.2 h)

/-- Rounding the mantissa of a decimal, of either sign, rounds its value. -/
theorem roundedMantissa_value (mode : RoundingMode) {x : Dec} {p : Nat} (h : p < x.scale) :
    Dec.value ⟨x.neg, roundedMantissa mode x.neg x.mant (x.scale - p), p⟩ * 10 ^ p = roundValue mode (x.value * 10 ^ p) := by
  obtain ⟨n, hn⟩ := Nat.exists_eq_add_of_le h.le
  have hn1 : 1 ≤ n := by omega
  have hexact : x.value * 10 ^ p = if x.neg then -(x.mant / 10 ^ n : ℚ) else x.mant / 10 ^ n := by
    rw [Dec.value, hn, pow_add]
    split <;> field_simp
  rw [hexact, Dec.value, div_mul_cancel₀ _ (by positivity), hn, Nat.add_sub_cancel_left]
  cases x.neg with
  | false => simp [roundValue_div _ mode hn1]
  | true => simp [roundValue_neg, roundValue_div _ _ hn1, roundedMantissa_mirror]

/-- The result of DRND is the exact value rounded to an integer multiple of `10^(−max(places, 0))`. -/
theorem decRound_value (places : Int) (mode : RoundingMode) (x : Dec) : (decRound places mode x).value * 10 ^ effectivePlaces places =
    roundValue mode (x.value * 10 ^ effectivePlaces places) := by
  rcases le_or_gt x.scale (effectivePlaces places) with h | h
  · rw [decRound_of_le h, decNormalize_value, ← lifted_value x h, roundValue_intCast]
  · rw [decRound_of_lt h, decNormalize_value, roundedMantissa_value mode h]

theorem result_drnd_of_dec {a : Quad} {x : Dec} (ha : dec a = some x) (places : Int) (mode : RoundingMode) (b : Quad) :
    Instr.result (.drnd places mode) a b = .complete (enc (decRound places mode x)) := withDec_of_dec ha _

theorem result_drnd_of_none {a : Quad} (ha : dec a = none) (places : Int) (mode : RoundingMode) (b : Quad) :
    Instr.result (.drnd places mode) a b = .raise .badOpnd := withDec_of_none ha _

/-- Settles O33: a pseudo-instruction has the result of its DRND form, whose value `decRound_value` gives. -/
theorem drndRoundsTheExactValue : Obligations.DrndRoundsTheExactValue := by
  constructor
  · intro a b x i places mode ha hi
    have hresult : Instr.result i a b = Instr.result (.drnd places mode) a b := by
      rcases hi with rfl | ⟨rfl, rfl, rfl⟩ | ⟨rfl, rfl, rfl⟩ | ⟨rfl, rfl, rfl⟩ <;> rfl
    obtain ⟨hm, hs⟩ := decRound_bounds (places := places) (mode := mode) (dec_mant_lt ha) (dec_scale_le ha)
    exact ⟨_, _, completes_iff.2 (hresult.trans (result_drnd_of_dec ha places mode b)), dec_enc hm hs, decRound_canonical places mode x,
      decRound_value places mode x⟩
  · intro a b places mode ha
    simp only [raises_iff (show ErrCode.badOpnd ≠ .none by decide)]
    exact ⟨result_drnd_of_none ha places mode b, result_drnd_of_none ha _ _ b, result_drnd_of_none ha _ _ b,
      result_drnd_of_none ha _ _ b⟩

/-! ## The rounding state machine (R113) -/

/-- WRITE is the last stage. -/
theorem RoundStage.run_write (places : Int) (mode : RoundingMode) (k : Nat) (res : CmdResult) :
    RoundStage.run places mode k (.write res) = .write res := by
  induction k with
  | zero => rfl
  | succ k ih => exact ih

/-- From COUNT, with no digit to remove: NORMALIZE and WRITE; otherwise by way of EXTRACT, DECIDE and INCREMENT. -/
theorem RoundStage.run_count (places : Int) (mode : RoundingMode) (x : Dec) :
    RoundStage.run places mode 5 (.count x) = .write (.complete (enc (decRound places mode x))) := by
  rcases le_or_gt x.scale (effectivePlaces places) with h | h
  · have hnext : RoundStage.next places mode (.count x) = .normalize x := if_pos h
    rw [RoundStage.run, hnext, decRound_of_le h]
    exact RoundStage.run_write places mode 3 _
  · have hnext : RoundStage.next places mode (.count x) = .extract x (x.scale - effectivePlaces places) := if_neg (not_le.2 h)
    rw [RoundStage.run, hnext, decRound_of_lt h]
    simp only [RoundStage.run, RoundStage.next, roundedMantissa]
    split <;> rfl

theorem RoundStage.run_decode (places : Int) (mode : RoundingMode) (a b : Quad) :
    RoundStage.run places mode 6 (.decode a) = .write (Instr.result (.drnd places mode) a b) := by
  cases ha : dec a with
  | none =>
    have hnext : RoundStage.next places mode (.decode a) = .write (.raise .badOpnd) := by rw [RoundStage.next, ha]
    rw [RoundStage.run, hnext, RoundStage.run_write, result_drnd_of_none ha]
  | some x =>
    have hnext : RoundStage.next places mode (.decode a) = .count x := by rw [RoundStage.next, ha]
    rw [RoundStage.run, hnext, RoundStage.run_count, result_drnd_of_dec ha]

/-- Settles O60: the stages end with DRND's result, which is a completion or BADOPND as A decodes or not. -/
theorem roundingStagesGiveDrnd : Obligations.RoundingStagesGiveDrnd := by
  intro places mode a b
  rw [RoundStage.run_decode places mode a b]
  cases ha : dec a with
  | none =>
    have hresult := result_drnd_of_none ha places mode b
    exact .inr ⟨congrArg _ hresult, (raises_iff (by decide)).2 hresult⟩
  | some x =>
    have hresult := result_drnd_of_dec ha places mode b
    exact .inl ⟨_, congrArg _ hresult, completes_iff.2 hresult⟩

end Sys2Proof.Machine

/-! SUPPORT. The family 60_exceptions.md: each error code has one cause (R120 to R123), the checks in their order (R124), and the error
entry (R125). -/

namespace Sys2Proof.Machine

/-! ## The cause of each error code (R120 to R123) -/

/-- What makes a command on the operands A and B end with the error code. An illegal word is no command; SCL10 with a k beyond the
table, which no word gives, ends with ILLEGAL by the model's choice (log 17). -/
def ErrorCause (i : Instr) (a b : Quad) : ErrCode → Prop
  | .none => False
  | .overflow => ((i = .div ∨ i = .mod) ∧ b = 0) ∨ (i = .ddiv ∧ ∃ x y, dec a = some x ∧ dec b = some y ∧ y.mant = 0)
  | .domain => i = .isqrt ∧ s128 a < 0
  | .illegal => ∃ k, i = .scl10 k ∧ Config.lastPower < k
  | .badOpnd => isDecimal i = true ∧ (dec a = none ∨ (readsB i = true ∧ dec b = none))

/-- A one-operand decimal command raises BADOPND for its operand, or what it raises on the decoded one. -/
theorem withDec_eq_raise {a : Quad} {f : Dec → CmdResult} {e : ErrCode} (h : withDec a f = .raise e) :
    (e = .badOpnd ∧ dec a = none) ∨ ∃ x, dec a = some x ∧ f x = .raise e := by
  cases ha : dec a with
  | none => rw [withDec_of_none ha] at h; cases h; exact .inl ⟨rfl, rfl⟩
  | some x => exact .inr ⟨x, rfl, (withDec_of_dec ha f).symm.trans h⟩

theorem withDecs_eq_raise {a b : Quad} {f : Dec → Dec → CmdResult} {e : ErrCode} (h : withDecs a b f = .raise e) :
    (e = .badOpnd ∧ (dec a = none ∨ dec b = none)) ∨ ∃ x y, dec a = some x ∧ dec b = some y ∧ f x y = .raise e := by
  obtain ⟨he, ha⟩ | ⟨x, ha, h⟩ := withDec_eq_raise h
  · exact .inl ⟨he, .inl ha⟩
  · obtain ⟨he, hb⟩ | ⟨y, hb, h⟩ := withDec_eq_raise h
    · exact .inl ⟨he, .inr hb⟩
    · exact .inr ⟨x, y, ha, hb, h⟩

/-- The check of a command: the result is an error under a condition, and a completion otherwise. -/
theorem ite_raise_eq_raise {p : Prop} [Decidable p] {e e' : ErrCode} {v : Quad}
    (h : (if p then CmdResult.raise e' else .complete v) = .raise e) : e = e' ∧ p := by
  split at h
  case isTrue hp => cases h; exact ⟨rfl, hp⟩
  case isFalse => cases h

theorem decDiv_eq_raise {extra : Nat} {x y : Dec} {e : ErrCode} (h : decDiv extra x y = .raise e) : e = .overflow ∧ y.mant = 0 :=
  ite_raise_eq_raise h

/-- A malformed operand of a decimal command is reported, whether the command reads one operand or two (R121). -/
theorem result_of_malformed {i : Instr} {a b : Quad} (hi : isDecimal i = true)
    (h : dec a = none ∨ (readsB i = true ∧ dec b = none)) : Instr.result i a b = .raise .badOpnd := by
  cases hB : readsB i with
  | true => exact (raises_iff (by decide)).1 (raises_badOpnd_of_none (h.imp_right And.right) hi hB)
  | false =>
    have ha : dec a = none := h.resolve_right (by simp [hB])
    cases i <;> cases hi <;> cases hB <;> exact withDec_of_none ha _

theorem result_of_cause {i : Instr} {a b : Quad} {e : ErrCode} (h : ErrorCause i a b e) : Instr.result i a b = .raise e := by
  cases e with
  | none => exact h.elim
  | overflow =>
    obtain ⟨rfl | rfl, rfl⟩ | ⟨rfl, x, y, ha, hb, hy⟩ := h
    · exact (raises_iff (by decide)).1 (raises_div_zero a)
    · exact (raises_iff (by decide)).1 (raises_mod_zero a)
    · exact (raises_iff (by decide)).1 (raises_ddiv_overflow ha hb hy)
  | domain =>
    obtain ⟨rfl, ha⟩ := h
    exact (raises_iff (by decide)).1 (raises_isqrt ha b)
  | illegal =>
    obtain ⟨k, rfl, hk⟩ := h
    exact if_pos hk
  | badOpnd => exact result_of_malformed h.1 h.2

/-- What each shape of command can raise: the first five wide commands nothing, DIV, MOD, ISQRT and SCL10 what their one check says, a
decimal command BADOPND, and DDIV OVERFLOW besides. -/
theorem cause_of_result {i : Instr} {a b : Quad} {e : ErrCode} (h : Instr.result i a b = .raise e) : ErrorCause i a b e := by
  cases i
  case add | sub | neg | abs | mul => cases h
  case div =>
    obtain ⟨rfl, hb⟩ := ite_raise_eq_raise h
    exact .inl ⟨.inl rfl, hb⟩
  case mod =>
    obtain ⟨rfl, hb⟩ := ite_raise_eq_raise h
    exact .inl ⟨.inr rfl, hb⟩
  case isqrt =>
    obtain ⟨rfl, ha⟩ := ite_raise_eq_raise h
    exact ⟨rfl, ha⟩
  case scl10 k =>
    obtain ⟨rfl, hk⟩ := ite_raise_eq_raise h
    exact ⟨k, rfl, hk⟩
  case dadd | dsub | dmul =>
    obtain ⟨rfl, hnone⟩ | ⟨x, y, -, -, h⟩ := withDecs_eq_raise h
    · exact ⟨rfl, hnone.imp_right (⟨rfl, ·⟩)⟩
    · cases h
  case ddiv =>
    obtain ⟨rfl, hnone⟩ | ⟨x, y, ha, hb, h⟩ := withDecs_eq_raise h
    · exact ⟨rfl, hnone.imp_right (⟨rfl, ·⟩)⟩
    · obtain ⟨rfl, hy⟩ := decDiv_eq_raise h
      exact .inr ⟨rfl, x, y, ha, hb, hy⟩
  case drnd | dnorm | dceil | dfloor | dtrunc =>
    obtain ⟨rfl, ha⟩ | ⟨x, -, h⟩ := withDec_eq_raise h
    · exact ⟨rfl, .inl ha⟩
    · cases h

/-- A command ends with an error code exactly when the code's cause is there. -/
theorem result_eq_raise_iff {i : Instr} {a b : Quad} {e : ErrCode} : Instr.result i a b = .raise e ↔ ErrorCause i a b e :=
  ⟨cause_of_result, result_of_cause⟩

theorem result_complete_of_no_cause {i : Instr} {a b : Quad} (h : ∀ e : ErrCode, ¬ErrorCause i a b e) :
    ∃ v, Instr.result i a b = .complete v := by
  cases hres : Instr.result i a b with
  | complete v => exact ⟨v, rfl⟩
  | raise e => exact absurd (cause_of_result hres) (h e)

theorem not_illegal_cause {i : Instr} (hi : i.WellFormed) (a b : Quad) : ¬ErrorCause i a b .illegal := by
  rintro ⟨k, rfl, hk⟩
  exact absurd (of_decide_eq_true hi) (not_le.2 hk)

/-! ## The codes a finished command leaves in ERR (R120) -/

theorem finish_err_iff (s : State) {res : CmdResult} {e : ErrCode} (he : e ≠ .none) : (s.finish res).err = e ↔ res = .raise e := by
  cases res with
  | complete v => simp [he.symm]
  | raise e' => simp

theorem exec_err_iff {i : Instr} {s t : State} (h : exec i s = .next t) {e : ErrCode} (he : e ≠ .none) :
    t.err = e ↔ ErrorCause i s.la s.lb e := by
  rw [exec_eq] at h
  cases h
  rw [finish_err_iff s he, result_eq_raise_iff]

/-- Settles O36. -/
theorem domainOnlyFromNegativeIsqrt : Obligations.DomainOnlyFromNegativeIsqrt :=
  fun _ _ _ h => exec_err_iff h (by decide)

/-- Settles O37: ILLEGAL's cause is a k that no well-formed SCL10 has. -/
theorem overflowAndBadOperandCauses : Obligations.OverflowAndBadOperandCauses := by
  intro i s t hi h
  refine ⟨exec_err_iff h (by decide), exec_err_iff h (by decide), ?_⟩
  rw [Ne, exec_err_iff h (by decide)]
  exact not_illegal_cause hi s.la s.lb

/-! ## The checks of the completion step (R124) -/

theorem perform_of_illegal {s : State} {e : Illegal} (h : decode s.lcmd = .error e) : s.perform = .next (s.raise .illegal) := by
  rw [State.perform, h]
  rfl

section
variable {s : State} {i : Instr} (hi : decode s.lcmd = .ok i)
include hi

theorem perform_of_cause {e : ErrCode} (h : ErrorCause i s.la s.lb e) : s.perform = .next (s.raise e) := by
  rw [perform_of_decode hi, exec_eq, result_of_cause h]
  rfl

/-- A decoded command is well-formed, so ILLEGAL has no cause and the four checks of R124 are all there are. -/
theorem perform_complete_of_no_cause (hbad : ¬ErrorCause i s.la s.lb .badOpnd) (hover : ¬ErrorCause i s.la s.lb .overflow)
    (hdom : ¬ErrorCause i s.la s.lb .domain) : ∃ v, s.perform = .next (s.complete v) := by
  have hwf : i.WellFormed := (encodeOfDecodeIsTheWord _ _ hi).1
  obtain ⟨v, hv⟩ := result_complete_of_no_cause (i := i) (a := s.la) (b := s.lb) fun
    | .none => id
    | .overflow => hover
    | .domain => hdom
    | .illegal => not_illegal_cause hwf _ _
    | .badOpnd => hbad
  refine ⟨v, ?_⟩
  rw [perform_of_decode hi, exec_eq, hv]
  rfl

end

/-- Settles O34: each check's failure is the cause of its code, and a command with no cause completes. -/
theorem errorChecksInOrder : Obligations.ErrorChecksInOrder := by
  intro s
  refine ⟨fun e he => perform_of_illegal he, fun i hi => ⟨fun h => perform_of_cause hi h,
    fun h => perform_of_cause hi (.inl h),
    fun x y hd ha hb hy => perform_of_cause hi (.inr ⟨hd, x, y, ha, hb, hy⟩),
    fun h => perform_of_cause hi h, fun hdec hzero hmant hroot => perform_complete_of_no_cause hi ?_ ?_ ?_⟩⟩
  · rintro ⟨hd, ha | ⟨hB, hb⟩⟩
    · exact (hdec hd).1 ha
    · exact (hdec hd).2 hB hb
  · rintro (⟨hdiv, hb⟩ | ⟨hd, x, y, -, hb, hy⟩)
    · exact hzero hdiv hb
    · exact hmant hd y hb hy
  · rintro ⟨hsq, ha⟩
    exact absurd ha (not_lt.2 (hroot hsq))

/-! ## The error entry (R125) -/

/-- Settles O35: the completion step finishes the state with a result, and only one that raises leaves an error. -/
theorem errorsWriteOnlyErrAndBusy : Obligations.ErrorsWriteOnlyErrAndBusy := by
  intro s
  refine ⟨_, perform_eq s, fun herr => ?_⟩
  cases hres : wordResult s.lcmd s.la s.lb with
  | complete v => rw [hres] at herr; exact absurd rfl herr
  | raise e => rfl

end Sys2Proof.Machine

/-! SUPPORT. The family 70_reset_and_hazards.md: what reset clears and ignores (R140), the CMD hazard (R145), and that nothing the host may do
while a command is in flight changes its result (R144, R146, R149). -/

namespace Sys2Proof.Machine

/-! ## The hazard (R145) -/

/-- Settles O42: it is the second half of the rule for a CMD write, which O41 states. -/
theorem cmdWriteWhileBusyIsAHazard : Obligations.CmdWriteWhileBusyIsAHazard := by
  intro s w rest hr hb hin
  obtain ⟨hissue, -⟩ := issueLatchesAndCompletionPerforms
  exact (hissue s w rest hr hin).2 hb

/-! ## Reset (R33, R140) -/

theorem atReset_clearRegisters (s : State) (level : Bool) : State.AtReset { s.clearRegisters with inReset := level } :=
  ⟨rfl, rfl, rfl, rfl, rfl, rfl, rfl, rfl⟩

theorem releaseReset_of_inReset {s : State} (hr : s.inReset = true) :
    s.releaseReset = { s.clearRegisters with inReset := false } := if_pos hr

theorem hostWrite_inReset {s : State} {off : Nat} (hoff : off < 64) (hr : s.inReset = true) (width : Width) (data : BitVec 64) :
    s.hostWrite (Config.coreBase + off) width data = .next s := by
  simp only [State.hostWrite, windowOffset_base off hoff, hr, if_true]

theorem hostRead_inReset {s : State} {off : Nat} (hoff : off < 64) (hr : s.inReset = true) (width : Width) :
    s.hostRead (Config.coreBase + off) width = .next s.answerFree := by
  simp only [State.hostRead, windowOffset_base off hoff, hr, if_true]

/-- Settles O50, one move at a time: the edges clear the registers, and between them every other move leaves them. -/
theorem resetClearsAndAbandons : Obligations.ResetClearsAndAbandons := by
  refine ⟨fun s rest hin => ?_, fun s rest hr hin => ?_, fun s rest hr hin => ?_, fun s hr hin => ?_,
    fun s off width data rest hr hoff hin => ?_, fun s off width rest hr hoff hin => ?_⟩
  · exact ⟨_, step_cons s _ rest hin, atReset_clearRegisters _ true, rfl, rfl⟩
  · have hrel := releaseReset_of_inReset (s := { s with inputs := rest }) hr
    exact ⟨_, (step_cons s _ rest hin).trans (congrArg _ hrel), atReset_clearRegisters _ false, rfl, rfl⟩
  · exact (step_cons s _ rest hin).trans (coreMove_inReset { s with inputs := rest } hr)
  · exact (step_nil s hin).trans (coreMove_inReset s hr)
  · exact (step_cons s _ rest hin).trans (hostWrite_inReset (s := { s with inputs := rest }) hoff hr width data)
  · exact ⟨_, (step_cons s _ rest hin).trans (hostRead_inReset (s := { s with inputs := rest }) hoff hr width), rfl⟩

/-! ## Moves between issue and completion (R144, R146, R149) -/

/-- The harmless moves are the accepted reads, and the accepted writes to any register but CMD. -/
theorem harmless_cases {e : Input} (h : e.harmless = true) :
    (∃ off, e = memRead off ∧ off < 64 ∧ off % 4 = 0) ∨
    ∃ off data, e = .write (Config.coreBase + off) .w32 data ∧ off < 64 ∧ off % 4 = 0 ∧ windowReg off ≠ .cmd := by
  cases e with
  | read addr width =>
    cases hoff : windowOffset addr with
    | none => simp [Input.harmless, hoff] at h
    | some off =>
      simp only [Input.harmless, hoff] at h
      obtain ⟨rfl, hal⟩ := acceptedAccess_iff.1 h
      obtain ⟨rfl, hlt⟩ := windowOffset_eq_some.1 hoff
      exact .inl ⟨off, rfl, hlt, hal⟩
  | write addr width data =>
    cases hoff : windowOffset addr with
    | none => simp [Input.harmless, hoff] at h
    | some off =>
      simp only [Input.harmless, hoff, Bool.and_eq_true, Bool.not_eq_true', beq_eq_false_iff_ne] at h
      obtain ⟨hacc, hcmd⟩ := h
      obtain ⟨rfl, hal⟩ := acceptedAccess_iff.1 hacc
      obtain ⟨rfl, hlt⟩ := windowOffset_eq_some.1 hoff
      exact .inr ⟨off, data, rfl, hlt, hal, hcmd⟩
  | complete => cases h
  | assertReset => cases h
  | releaseReset => cases h

/-- A write to any register but CMD is accepted and writes A and B at most. -/
theorem writeReg_of_ne_cmd (s : State) (v : Word) {reg : WindowReg} (h : reg ≠ .cmd) :
    ∃ x y, s.writeReg v reg = .next { s with a := x, b := y } := by
  cases reg with
  | a i => exact ⟨setQuadWord s.a i v, s.b, rfl⟩
  | b i => exact ⟨s.a, setQuadWord s.b i v, rfl⟩
  | r i => exact ⟨s.a, s.b, rfl⟩
  | cmd => exact absurd rfl h
  | status => exact ⟨s.a, s.b, rfl⟩
  | reserved => exact ⟨s.a, s.b, rfl⟩

/-- A harmless move outside reset writes A and B at most, and may answer the host. -/
theorem move_of_harmless {s : State} (hr : s.inReset = false) {e : Input} (he : e.harmless = true) :
    ∃ x y ws, s.move e = .next { s with a := x, b := y, readLog := ws } := by
  rcases harmless_cases he with ⟨off, rfl, hlt, hal⟩ | ⟨off, data, rfl, hlt, hal, hcmd⟩
  · exact ⟨s.a, s.b, _, hostRead_base s off hlt hr hal⟩
  · obtain ⟨x, y, hwrite⟩ := writeReg_of_ne_cmd s (data.setWidth 32) hcmd
    exact ⟨x, y, s.readLog, (hostWrite_base s off data hlt hr hal).trans hwrite⟩

/-- Harmless moves one after another, before the moves `rest`. -/
theorem run_harmless (n : Nat) (rest : List Input) {es : List Input} (h : ∀ e ∈ es, e.harmless = true) {s : State}
    (hr : s.inReset = false) :
    ∃ x y ws, Host.Core.run core (es.length + n) { s with inputs := es ++ rest } =
      Host.Core.run core n { s with a := x, b := y, inputs := rest, readLog := ws } := by
  induction es generalizing s with
  | nil => exact ⟨s.a, s.b, s.readLog, by rw [List.length_nil, Nat.zero_add, List.nil_append]⟩
  | cons e es ih =>
    rw [List.forall_mem_cons] at h
    obtain ⟨x, y, ws, hmove⟩ := move_of_harmless (s := { s with inputs := es ++ rest }) hr h.1
    have hstep := (step_cons { s with inputs := e :: (es ++ rest) } e (es ++ rest) rfl).trans hmove
    obtain ⟨x', y', ws', hrun⟩ := ih h.2 (s := { s with a := x, b := y, readLog := ws }) hr
    exact ⟨x', y', ws', by rw [List.length_cons, Nat.add_right_comm, List.cons_append, run_succ_of_step hstep, hrun]⟩

/-- The completion step, whatever A and B hold by then and whatever the host has been answered. -/
theorem step_completed_late {s : State} (hr : s.inReset = false) (hb : s.busy = true) (x y : Quad) (ws : List Word) :
    step { s with a := x, b := y, inputs := [.complete], readLog := ws } =
      .next { s.completed with a := x, b := y, inputs := [], readLog := ws, freeCount := s.freeCount } :=
  (step_complete (s := { s with a := x, b := y, inputs := [.complete], readLog := ws }) rfl hr hb).trans
    (congrArg _ (finish_frame { s with inputs := [] } _ x y [] ws s.freeCount))

/-- Settles O54: harmless moves write no latch, and the completion computes from the latches. -/
theorem latencyDoesNotChangeTheResult : Obligations.LatencyDoesNotChangeTheResult := by
  intro s es hr hb hes
  obtain ⟨x, y, ws, hrun⟩ := run_harmless 1 [.complete] hes hr
  rw [run_succ_of_step (step_completed_late hr hb x y ws)] at hrun
  have hbusy : s.completed.busy = false := State.finish_busy _ _
  exact ⟨_, _, hrun, step_completed_late hr hb s.a s.b s.readLog, rfl, rfl, hbusy, hbusy⟩

end Sys2Proof.Machine
